-- ==== Sys2Proof/Word.lean ====
section
/-! DEFINITION. The word types of the hexaly septet codec (spec 00_scope.md rules R6, R7 and R8): every value is an unsigned
bit vector of the width the spec gives it. -/

namespace Sys2Proof

/-- A 32-bit word of an interface: a command word (30_encoding.md rule R71), an output token word (rule R76) or a sideband
register (10_state.md rules R28 to R30). -/
abbrev Word := BitVec 32

/-- "a 7-bit unsigned value (0–127)" (00_scope.md rule R6). -/
abbrev Septet := BitVec 7

/-- "an 8-bit byte" (00_scope.md rule R6). Also a `BYTE` operand (30_encoding.md rule R72). -/
abbrev Octet := BitVec 8

/-- A character value: `CHAR_W` = 24 bits (00_scope.md rule R7). Any 24-bit value, a Unicode scalar value or not. -/
abbrev CharVal := BitVec 24

end Sys2Proof
end

