-- ==== Sys2Proof/Syntax.lean ====
section
/-! DEFINITION. The commands of the `HX7` v1 command set: one constructor per row of spec/opcode_table.json (30_encoding.md
rule R73). The operands have the exact width their operand form gives them (rule R72), so a term with an operand out of range
cannot be written. -/

namespace Sys2Proof

/-- The 12 commands. -/
inductive Instr where
  /-- `NOP` (44_control.md rule R180). -/
  | nop
  /-- `CLR` (44_control.md rule R182). -/
  | clr
  /-- `ENC c` (40_alphabet.md rule R101). -/
  | enc (c : CharVal)
  /-- `ENCP c` (43_fused.md rule R161). -/
  | encp (c : CharVal)
  /-- `PKS b` (41_pack.md rule R121). -/
  | pks (b : Octet)
  /-- `PKF` (41_pack.md rule R124). -/
  | pkf
  /-- `UPO b` (42_unpack.md rule R141). -/
  | upo (b : Octet)
  /-- `UPE` (42_unpack.md rule R144). -/
  | upe
  /-- `DEC b` (40_alphabet.md rule R105). -/
  | dec (b : Octet)
  /-- `DECE` (40_alphabet.md rule R108). -/
  | dece
  /-- `UPD b` (43_fused.md rule R164). -/
  | upd (b : Octet)
  /-- `UPDE` (43_fused.md rule R167). -/
  | upde
  deriving DecidableEq, Repr

end Sys2Proof
end

