-- ==== Sys2Proof/Machine/Operands.lean ====
section
/-! DEFINITION. The fields of a command word and the operand forms (spec 30_encoding.md rules R71 to R73). -/

namespace Sys2Proof

/-- `OP = w[3:0]` (rule R71). -/
def opField (w : Word) : BitVec 4 := w.extractLsb' 0 4

/-- `RSV = w[7:4]` (rule R71). -/
def rsvField (w : Word) : BitVec 4 := w.extractLsb' 4 4

/-- `DATA = w[31:8]` (rule R71). -/
def dataField (w : Word) : BitVec 24 := w.extractLsb' 8 24

/-- `DATA8 = w[15:8]`, the low byte of `DATA` (rule R71). -/
def data8Field (w : Word) : BitVec 8 := w.extractLsb' 8 8

/-- `DATAHI = w[31:16]`, the high 16 bits of `DATA` (rule R71). -/
def dataHiField (w : Word) : BitVec 16 := w.extractLsb' 16 16

/-- The operand forms of rule R72. -/
inductive OperandForm where
  /-- no operand; legal when `DATA = 0` -/
  | none
  /-- a 24-bit character value; always legal -/
  | char
  /-- an 8-bit value; legal when `DATAHI = 0` -/
  | byte
  deriving DecidableEq, Repr

/-- The operand form the table of rule R73 gives an `OP` value; `none` for the reserved values 0xC to 0xF. -/
def opcodeForm (op : BitVec 4) : Option OperandForm :=
  match op.toNat with
  | 0 | 1 | 5 | 7 | 9 | 11 => some .none
  | 2 | 3 => some .char
  | 4 | 6 | 8 | 10 => some .byte
  | _ => Option.none

/-- The `CHAR` operand: `c = zext(w[31:8])` (rule R72). -/
def charOperand (w : Word) : CharVal := dataField w

/-- The `BYTE` operand: `b = w[15:8]`, a whole byte (rule R72). -/
def byteOperand (w : Word) : Octet := data8Field w

/-- The septet the packer takes from a byte: `b & 0x7F` ("each septet (masked to 7 bits)", 41_pack.md rule R121). -/
def septetOf (b : Octet) : Septet := b.setWidth 7

/-- A septet as a byte with its high bit 0 ("one byte per septet, high bit always 0", 20_memory.md rule R53): what a fused
command hands to the next engine (43_fused.md rule R160). -/
def byteOfSeptet (v : Septet) : Octet := v.setWidth 8

end Sys2Proof
end

