-- ==== Sys2Proof/Config.lean ====
section
/-! DEFINITION. The parameters of the block (spec 00_scope.md rule R7; 92_eei_decisions.md "Named open parameters"): what is
fixed when a block is built and no command, host access or reset writes (20_memory.md rule R40). The default contents and the
lookups stand in Machine/Rom.lean, the conditions on the parameters in WellFormed.lean. -/

namespace Sys2Proof

/-- The parameters one block is built with. They are carried by the machine's State in its field `cfg`, which no step
changes, so that a statement about every state is a statement about every choice of the parameters (log entry 1). -/
structure Config where
  /-- `P_BASIC_ROM`: exactly 128 entries, the position is the code (20_memory.md rule R41). -/
  basic : Vector CharVal 128
  /-- `P_EXT_ROM`: the entries that are present, as (code, character) pairs, the codes strictly rising (20_memory.md rule
  R44). A code that is not listed is absent. -/
  ext : List (Septet × CharVal)
  /-- `OUT_FIFO_DEPTH`: how many tokens the output buffer holds. The spec leaves it `OPEN`, at least 2. -/
  outDepth : Nat
  deriving DecidableEq, Repr

/-- The block's three ports (30_encoding.md rule R70). -/
inductive Port where
  | command
  | output
  | sideband
  deriving DecidableEq, Repr

/-- `PLATFORM_MAP`: where the ports sit on a system bus (20_memory.md rule R56; 93_implementation_defined.md U8). `OPEN`: the
spec leaves it to the platform and no rule depends on it, so it has no body here and no definition of the model reads it
(log entry 3). -/
opaque Config.platformMap : Port → Nat

end Sys2Proof
end

