-- ==== Sys2Proof/Machine/Rom.lean ====
section
/-! DEFINITION. The alphabet ROM (spec 20_memory.md section 1): the default contents of the two tables and the four lookups
`BasicRead`, `BasicFind`, `ExtRead` and `ExtFind` (00_scope.md rule R9). A ROM read has no side effect and always gives the
same value for the same index (rule R50): the lookups are functions of the parameters alone. -/

namespace Sys2Proof

/-- Codes 0x00 to 0x0F of rule R42's table. -/
def Config.basicRows0 : List CharVal :=
  [0x0040#24, 0x00A3#24, 0x0024#24, 0x00A5#24, 0x00E8#24, 0x00E9#24, 0x00F9#24, 0x00EC#24,
   0x00F2#24, 0x00C7#24, 0x000A#24, 0x00D8#24, 0x00F8#24, 0x000D#24, 0x00C5#24, 0x00E5#24]

/-- Codes 0x10 to 0x1F of rule R42's table. -/
def Config.basicRows1 : List CharVal :=
  [0x0394#24, 0x005F#24, 0x03A6#24, 0x0393#24, 0x039B#24, 0x03A9#24, 0x03A0#24, 0x03A8#24,
   0x03A3#24, 0x0398#24, 0x039E#24, 0x001B#24, 0x00C6#24, 0x00E6#24, 0x00DF#24, 0x00C9#24]

/-- Codes 0x20 to 0x2F of rule R42's table. -/
def Config.basicRows2 : List CharVal :=
  [0x0020#24, 0x0021#24, 0x0022#24, 0x0023#24, 0x00A4#24, 0x0025#24, 0x0026#24, 0x0027#24,
   0x0028#24, 0x0029#24, 0x002A#24, 0x002B#24, 0x002C#24, 0x002D#24, 0x002E#24, 0x002F#24]

/-- Codes 0x30 to 0x3F of rule R42's table. -/
def Config.basicRows3 : List CharVal :=
  [0x0030#24, 0x0031#24, 0x0032#24, 0x0033#24, 0x0034#24, 0x0035#24, 0x0036#24, 0x0037#24,
   0x0038#24, 0x0039#24, 0x003A#24, 0x003B#24, 0x003C#24, 0x003D#24, 0x003E#24, 0x003F#24]

/-- Codes 0x40 to 0x4F of rule R42's table. -/
def Config.basicRows4 : List CharVal :=
  [0x00A1#24, 0x0041#24, 0x0042#24, 0x0043#24, 0x0044#24, 0x0045#24, 0x0046#24, 0x0047#24,
   0x0048#24, 0x0049#24, 0x004A#24, 0x004B#24, 0x004C#24, 0x004D#24, 0x004E#24, 0x004F#24]

/-- Codes 0x50 to 0x5F of rule R42's table. -/
def Config.basicRows5 : List CharVal :=
  [0x0050#24, 0x0051#24, 0x0052#24, 0x0053#24, 0x0054#24, 0x0055#24, 0x0056#24, 0x0057#24,
   0x0058#24, 0x0059#24, 0x005A#24, 0x00C4#24, 0x00D6#24, 0x00D1#24, 0x00DC#24, 0x00A7#24]

/-- Codes 0x60 to 0x6F of rule R42's table. -/
def Config.basicRows6 : List CharVal :=
  [0x00BF#24, 0x0061#24, 0x0062#24, 0x0063#24, 0x0064#24, 0x0065#24, 0x0066#24, 0x0067#24,
   0x0068#24, 0x0069#24, 0x006A#24, 0x006B#24, 0x006C#24, 0x006D#24, 0x006E#24, 0x006F#24]

/-- Codes 0x70 to 0x7F of rule R42's table. -/
def Config.basicRows7 : List CharVal :=
  [0x0070#24, 0x0071#24, 0x0072#24, 0x0073#24, 0x0074#24, 0x0075#24, 0x0076#24, 0x0077#24,
   0x0078#24, 0x0079#24, 0x007A#24, 0x00E4#24, 0x00F6#24, 0x00F1#24, 0x00FC#24, 0x00E0#24]

/-- The default `P_BASIC_ROM`, in code order (rule R42; from general knowledge but for the positions the source fixes: log
entry 2). -/
def Config.basicRows : List CharVal :=
  basicRows0 ++ basicRows1 ++ basicRows2 ++ basicRows3 ++ basicRows4 ++ basicRows5 ++ basicRows6 ++ basicRows7

/-- The default `P_EXT_ROM`: the ten entries of rule R44; every other code, 0x1B included, is absent (log entry 2). -/
def Config.extRows : List (Septet × CharVal) :=
  [(0x0A#7, 0x000C#24), (0x14#7, 0x005E#24), (0x28#7, 0x007B#24), (0x29#7, 0x007D#24), (0x2F#7, 0x005C#24),
   (0x3C#7, 0x005B#24), (0x3D#7, 0x007E#24), (0x3E#7, 0x005D#24), (0x40#7, 0x007C#24), (0x65#7, 0x20AC#24)]

/-- The default parameters. The tables are the spec's defaults (rules R42 and R44); the depth of the output buffer is a
DESIGN CHOICE (`OUT_FIFO_DEPTH` is `OPEN`, at least 2: log entry 4). -/
def Config.default : Config where
  basic := ⟨⟨basicRows⟩, rfl⟩
  ext := extRows
  outDepth := 65536

/-- `BasicRead(i) = P_BASIC_ROM(i)` (rule R41). The index is a septet, so every index has an entry. -/
def Config.basicRead (cfg : Config) (i : Septet) : CharVal :=
  cfg.basic[i.toNat]'(by have := i.isLt; omega)

/-- `BasicFind(c)`: the code whose entry is `c`, searching all 128 positions, 0x1B included (rule R43). -/
def Config.basicFind (cfg : Config) (c : CharVal) : Option Septet :=
  (cfg.basic.toList.findIdx? (fun x => x == c)).map (BitVec.ofNat 7)

/-- `ExtRead(i)`, for an index of any width: absent for an index of 128 or more (rule R45). -/
def Config.extRead (cfg : Config) (i : Nat) : Option CharVal :=
  if i ≤ 127 then (cfg.ext.find? (fun e => e.1 == BitVec.ofNat 7 i)).map Prod.snd else none

/-- `ExtFind(c)`: the code whose entry is `c` (rule R46). -/
def Config.extFind (cfg : Config) (c : CharVal) : Option Septet :=
  (cfg.ext.find? (fun e => e.2 == c)).map Prod.fst

/-- The escape code `ESC` (00_scope.md rule R6). -/
def escSeptet : Septet := 0x1B#7

/-- The encode substitution septet `SP_SEPT` (00_scope.md rule R6). -/
def spSeptet : Septet := 0x20#7

/-- The decode substitution character `SP_CHAR`, U+0020 (00_scope.md rule R6). -/
def spChar : CharVal := 0x20#24

/-- The decode fallback character `QM_CHAR`, U+003F (00_scope.md rule R6). -/
def qmChar : CharVal := 0x3F#24

end Sys2Proof
end

