-- ==== Sys2Proof/WellFormed.lean ====
section
/-! DEFINITION. What is checked of a term before the machine gives it a meaning: the parameters a block is built with
(spec 00_scope.md rule R7) and the encoding of a command word (30_encoding.md rule R74). A term of `Instr` needs no check of
its own: its operands have exactly the widths of rule R72, so that every term is well-formed. -/

namespace Sys2Proof

/-- `P_BASIC_ROM` is injective: "every character appears at most once" (20_memory.md rule R41). -/
def Config.basicInjective (cfg : Config) : Bool := decide cfg.basic.toList.Nodup

/-- The codes of `P_EXT_ROM` strictly rise: each code has at most one entry, and equal tables are equal lists. -/
def Config.extCodesRise (cfg : Config) : Bool := decide ((cfg.ext.map Prod.fst).Pairwise (· < ·))

/-- `P_EXT_ROM` is injective (92_eei_decisions.md D24). -/
def Config.extInjective (cfg : Config) : Bool := decide (cfg.ext.map Prod.snd).Nodup

/-- `OUT_FIFO_DEPTH` is at least 2 (00_scope.md rule R7). -/
def Config.depthAtLeastTwo (cfg : Config) : Bool := decide (2 ≤ cfg.outDepth)

/-- The conditions of rule R7 on the parameters. "A model must refuse a parameter value that breaks any of these
conditions": `State.build` refuses them (Machine/Command.lean). -/
def Config.wf (cfg : Config) : Bool :=
  cfg.basicInjective && cfg.extCodesRise && cfg.extInjective && cfg.depthAtLeastTwo

/-- Rule R74, clause 1, for a word that is legal: `OP` is none of 0xC to 0xF. -/
def opAssigned (w : Word) : Bool := (opcodeForm (opField w)).isSome

/-- Rule R74, clause 2: `RSV = 0`. -/
def rsvZero (w : Word) : Bool := rsvField w == 0#4

/-- Rule R74, clause 3: a `NONE`-form command has `DATA = 0`. -/
def noneDataZero (w : Word) : Bool := opcodeForm (opField w) != some .none || dataField w == 0#24

/-- Rule R74, clause 4: a `BYTE`-form command has `DATAHI = 0`. -/
def byteDataHiZero (w : Word) : Bool := opcodeForm (opField w) != some .byte || dataHiField w == 0#16

/-- A command word is legal: none of the four clauses of rule R74 holds of it. -/
def legalWord (w : Word) : Bool := opAssigned w && rsvZero w && noneDataZero w && byteDataHiZero w

end Sys2Proof
end

