-- ==== Sys2Proof/Decode.lean ====
section
/-! DEFINITION. From a command word to a command, total on every word and refusing by name (spec 30_encoding.md rules R71 to
R75), and the encoder. Every command is exactly one 32-bit word on a port (rule R75): there are no bytes in memory to lay out,
so a word has no byte order. -/

namespace Sys2Proof

/-- Why a word names no command (rule R74). The block reports none of this: whichever holds, it raises the one
`IllegalCommand` with cause code 1 (60_exceptions.md rule R204). The names are the model's (log entry 5). -/
inductive DecodeError where
  /-- `OP` is 0xC to 0xF -/
  | reservedOp
  /-- `RSV` is not 0 -/
  | rsvNonzero
  /-- a `NONE`-form command with `DATA` not 0 -/
  | dataNonzero
  /-- a `BYTE`-form command with `DATAHI` not 0 -/
  | dataHiNonzero
  deriving DecidableEq, Repr

/-- A `NONE`-form command is legal when `DATA = 0` (rule R72). -/
def decodeNone (w : Word) (i : Instr) : Except DecodeError Instr :=
  if dataField w = 0#24 then .ok i else .error .dataNonzero

/-- A `CHAR`-form command is legal with every `DATA` (rule R72). -/
def decodeChar (w : Word) (f : CharVal → Instr) : Except DecodeError Instr :=
  .ok (f (charOperand w))

/-- A `BYTE`-form command is legal when `DATAHI = 0` (rule R72). -/
def decodeByte (w : Word) (f : Octet → Instr) : Except DecodeError Instr :=
  if dataHiField w = 0#16 then .ok (f (byteOperand w)) else .error .dataHiNonzero

/-- The opcode map of rule R73. -/
def decodeOp (w : Word) : Except DecodeError Instr :=
  match (opField w).toNat with
  | 0x0 => decodeNone w .nop
  | 0x1 => decodeNone w .clr
  | 0x2 => decodeChar w .enc
  | 0x3 => decodeChar w .encp
  | 0x4 => decodeByte w .pks
  | 0x5 => decodeNone w .pkf
  | 0x6 => decodeByte w .upo
  | 0x7 => decodeNone w .upe
  | 0x8 => decodeByte w .dec
  | 0x9 => decodeNone w .dece
  | 0xA => decodeByte w .upd
  | 0xB => decodeNone w .upde
  | _ => .error .reservedOp

/-- The decoder: "every 32-bit word is one of 12 commands or illegal" (rule R74). -/
def decode (w : Word) : Except DecodeError Instr :=
  if rsvField w = 0#4 then decodeOp w else .error .rsvNonzero

/-- The `OP` value of a command (rule R73). -/
def Instr.opcode : Instr → BitVec 4
  | .nop => 0x0#4
  | .clr => 0x1#4
  | .enc _ => 0x2#4
  | .encp _ => 0x3#4
  | .pks _ => 0x4#4
  | .pkf => 0x5#4
  | .upo _ => 0x6#4
  | .upe => 0x7#4
  | .dec _ => 0x8#4
  | .dece => 0x9#4
  | .upd _ => 0xA#4
  | .upde => 0xB#4

/-- The `DATA` field of a command: its operand zero-extended, 0 for a `NONE` form (rules R72 and R77). -/
def Instr.data : Instr → BitVec 24
  | .nop => 0#24
  | .clr => 0#24
  | .enc c => c
  | .encp c => c
  | .pks b => b.setWidth 24
  | .pkf => 0#24
  | .upo b => b.setWidth 24
  | .upe => 0#24
  | .dec b => b.setWidth 24
  | .dece => 0#24
  | .upd b => b.setWidth 24
  | .upde => 0#24

/-- "The assembled word is `(operand << 8) | OP`, with `RSV = 0`" (rule R77). -/
def commandWord (op : BitVec 4) (data : BitVec 24) : Word :=
  (data.setWidth 32 <<< 8) ||| op.setWidth 32

/-- The word of a command. -/
def encode (i : Instr) : Word := commandWord i.opcode i.data

/-- The command the decoder reads from a word of the opcode table, of `nbits` bits. A command is one word of 32 bits (rule
R75), so a row of more bits names none; the bits above `nbits` are 0. -/
def decodeTableWord (nbits w : Nat) : Option Instr :=
  if nbits ≤ 32 then
    match decode (BitVec.ofNat 32 (w % 2 ^ nbits)) with
    | .ok i => some i
    | .error _ => none
  else none

end Sys2Proof
end

