-- ==== Sys2Proof/Machine/State.lean ====
section
/-! DEFINITION. The state of the block: the registers of spec 10_state.md rule R20, the contents of its ports
(30_encoding.md rule R70), and the parameters it was built with (00_scope.md rule R7). Plain data throughout. -/

namespace Sys2Proof.Machine

/-- Why the block could stop. The spec gives it no stop: every command completes (00_scope.md rule R10) and "an illegal
command does not stop the block" (60_exceptions.md rule R201). So the type has no constructor, and no step answers a fault. -/
inductive Fault
  deriving DecidableEq, Repr

/-- Why a step can refuse. -/
inductive Refusal where
  /-- Raised by an arm of exec whose command has no meaning yet; no arm of this model raises it. Safe: nothing is claimed. -/
  | notModelled (mnemonic : String)
  /-- Raised by `State.build` for parameters that break 00_scope.md rule R7: "A model must refuse a parameter value that breaks
  any of these conditions". No step raises it. Safe: nothing is claimed of such a block. -/
  | badParameters
  deriving DecidableEq, Repr

/-- The decode state of 10_state.md rule R25. -/
inductive DecState where
  /-- `NORMAL`, "initial and terminal" -/
  | normal
  /-- `ESCAPED`, entered on seeing 0x1B -/
  | escaped
  deriving DecidableEq, Repr

/-- An output token: its kind and its value, in the width the kind has (30_encoding.md rule R76). Its 32-bit word is
`Token.word` (Machine/Flags.lean). -/
inductive Token where
  | sept (v : Septet)
  | oct (v : Octet)
  | char (c : CharVal)
  deriving DecidableEq, Repr

/-- What the sideband port can be asked for: the two block registers and the view (10_state.md rule R26). -/
inductive SidebandReg where
  | status
  | errcmd
  | state
  deriving DecidableEq, Repr

/-- What the world outside does to the block between commands. -/
inductive HostAct where
  /-- present a command word on the command port (30_encoding.md rule R70) -/
  | present (w : Word)
  /-- take the oldest token from the output port (30_encoding.md rule R70) -/
  | readToken
  /-- read a register on the sideband port (10_state.md rule R30) -/
  | readSideband (r : SidebandReg)
  /-- assert the reset input (70_reset_and_hazards.md rule R220) -/
  | assertReset
  deriving DecidableEq, Repr

/-- What the block has handed to the host. -/
inductive HostData where
  /-- a token, taken from the output port -/
  | token (t : Token)
  /-- a value, read on the sideband port -/
  | sideband (r : SidebandReg) (v : Word)
  deriving DecidableEq, Repr

/-- The state. The first eight fields are the registers of rule R20, "exactly the following registers"; the next four are the
contents of the block's interfaces, which the spec keeps apart from the registers and a step of a closed machine must hold
(log entry 6); the last is the parameters (log entry 1). -/
structure State where
  /-- `PK_CARRY[6:0]` (rule R23) -/
  pkCarry : BitVec 7
  /-- `PK_FILL[2:0]` (rule R23) -/
  pkFill : BitVec 3
  /-- `UP_ACC[6:0]` (rule R24) -/
  upAcc : BitVec 7
  /-- `UP_SHIFT[2:0]` (rule R24) -/
  upShift : BitVec 3
  /-- `UP_PEND` (rule R24); true is 1 -/
  upPend : Bool
  /-- `DEC_ESC` (rule R25); normal is 0, escaped is 1 -/
  decEsc : DecState
  /-- `STATUS[31:0]` (rule R28): bit 0 is `ILL`; bits 31:1 read 0 (`readStatus`) -/
  status : Word
  /-- `ERRCMD[31:0]` (rule R29) -/
  errcmd : Word
  /-- the command words presented on the command port and not yet accepted, the oldest first -/
  cmdPort : List Word
  /-- the output buffer: the tokens emitted and not yet read by the host, the oldest first -/
  outBuf : List Token
  /-- what the host will do, in order -/
  hostActs : List HostAct
  /-- what the host has been handed, the oldest first -/
  received : List HostData
  /-- the parameters the block was built with -/
  cfg : Config
  deriving DecidableEq, Repr

/-- The block right after reset: every register is 0 (10_state.md rule R32), the output buffer is empty
(70_reset_and_hazards.md rule R220), nothing is presented and the host has nothing to do. The parameters are the defaults. -/
def State.reset : State where
  pkCarry := 0#7
  pkFill := 0#3
  upAcc := 0#7
  upShift := 0#3
  upPend := false
  decEsc := .normal
  status := 0#32
  errcmd := 0#32
  cmdPort := []
  outBuf := []
  hostActs := []
  received := []
  cfg := Config.default

end Sys2Proof.Machine
end

