-- ==== Sys2Proof/Machine/Flags.lean ====
section
/-! DEFINITION. The status register, the counters' updates, the words the ports carry and the idle predicates
(spec 10_state.md, 30_encoding.md rule R76, 70_reset_and_hazards.md rule R226). -/

namespace Sys2Proof.Machine

/-- `STATUS.ILL`, bit 0 (10_state.md rule R28). -/
def statusIll (status : Word) : Bool := status.getLsbD 0

/-- `STATUS.ILL <- 1`; no other bit changes (60_exceptions.md rule R201). -/
def setStatusIll (status : Word) : Word := status ||| 1#32

/-- What a read of `STATUS` returns: bits 31:1 are hardwired 0 (10_state.md rule R28). -/
def readStatus (status : Word) : Word := status &&& 1#32

/-- `DEC_ESC` as the bit it is: 0 = `NORMAL`, 1 = `ESCAPED` (10_state.md rule R25). -/
def decEscBit : DecState → BitVec 1
  | .normal => 0#1
  | .escaped => 1#1

/-- `PK_FILL` after a septet: `(PK_FILL + 7) mod 8` (10_state.md rule R23; in 3 bits, `PK_FILL - 1`). -/
def nextFill (fill : BitVec 3) : BitVec 3 := BitVec.ofNat 3 ((fill.toNat + 7) % 8)

/-- `UP_SHIFT` after an octet: `(UP_SHIFT + 1) mod 7` (42_unpack.md rule R141). -/
def nextShift (shift : BitVec 3) : BitVec 3 := BitVec.ofNat 3 ((shift.toNat + 1) % 7)

/-- The `STATE` view: the engine registers at the bits of 10_state.md rule R30's table, every other bit 0. -/
def stateView (s : State) : Word :=
  s.pkCarry.setWidth 32 ||| (s.pkFill.setWidth 32 <<< 8) ||| (s.upAcc.setWidth 32 <<< 16)
    ||| (s.upShift.setWidth 32 <<< 24) ||| ((BitVec.ofBool s.upPend).setWidth 32 <<< 27)
    ||| ((decEscBit s.decEsc).setWidth 32 <<< 28)

/-- What a sideband read returns: "the values the last completed command left" (10_state.md rule R30). -/
def sidebandValue (r : SidebandReg) (s : State) : Word :=
  match r with
  | .status => readStatus s.status
  | .errcmd => s.errcmd
  | .state => stateView s

/-- `KIND` of a token (30_encoding.md rule R76). -/
def Token.kind : Token → BitVec 4
  | .sept _ => 0x1#4
  | .oct _ => 0x2#4
  | .char _ => 0x3#4

/-- `VALUE` of a token, zero-extended to 24 bits (30_encoding.md rule R76). -/
def Token.value : Token → BitVec 24
  | .sept v => v.setWidth 24
  | .oct v => v.setWidth 24
  | .char c => c

/-- The token's word on the output port: `(zext_24(value) << 8) | KIND` (30_encoding.md rule R76). -/
def Token.word (t : Token) : Word := (t.value.setWidth 32 <<< 8) ||| t.kind.setWidth 32

/-- The words waiting on the output port, the first to be delivered first (20_memory.md rule R57). -/
def outputWords (s : State) : List Word := s.outBuf.map Token.word

/-- `PackIdle(S)` (70_reset_and_hazards.md rule R226). -/
def packIdle (s : State) : Bool := s.pkFill == 0#3 && s.pkCarry == 0#7

/-- `UnpackIdle(S)` (70_reset_and_hazards.md rule R226). -/
def unpackIdle (s : State) : Bool := s.upShift == 0#3 && s.upAcc == 0#7 && !s.upPend

/-- `DecIdle(S)` (70_reset_and_hazards.md rule R226). -/
def decIdle (s : State) : Bool := s.decEsc == .normal

end Sys2Proof.Machine
end

