-- ==== Sys2Proof/Machine/Ops.lean ====
section
/-! DEFINITION. The operations the meanings share: register writes, token emission, the bodies of the four engines
(spec 43_fused.md rule R160), raising the one exception (60_exceptions.md rule R201), and what the host does at the ports. -/

namespace Sys2Proof.Machine

/-- `emit`, for each token in order: append to the output list (00_scope.md rule R9). -/
def State.emit (s : State) (ts : List Token) : State := { s with outBuf := s.outBuf ++ ts }

/-- Write the PACK registers. -/
def State.setPack (s : State) (carry : BitVec 7) (fill : BitVec 3) : State :=
  { s with pkCarry := carry, pkFill := fill }

/-- Write the UNPACK registers. -/
def State.setUnpack (s : State) (acc : BitVec 7) (shift : BitVec 3) (pend : Bool) : State :=
  { s with upAcc := acc, upShift := shift, upPend := pend }

/-- Write the DECODE register. -/
def State.setDec (s : State) (d : DecState) : State := { s with decEsc := d }

/-- Write the block status registers. -/
def State.setErr (s : State) (status errcmd : Word) : State := { s with status := status, errcmd := errcmd }

/-- Take the word at the head of the command port: what is left on the port. -/
def State.setCmdPort (s : State) (ws : List Word) : State := { s with cmdPort := ws }

/-- What is left of the host's acts. -/
def State.setHostActs (s : State) (as : List HostAct) : State := { s with hostActs := as }

/-- Hand data to the host. -/
def State.deliver (s : State) (ds : List HostData) : State := { s with received := s.received ++ ds }

/-- Set the output buffer. -/
def State.setOutBuf (s : State) (ts : List Token) : State := { s with outBuf := ts }

/-- Every register of 10_state.md rule R20 takes its reset value (44_control.md rule R182; 10_state.md rule R32). -/
def State.clearRegisters (s : State) : State :=
  (((s.setPack 0#7 0#3).setUnpack 0#7 0#3 false).setDec .normal).setErr 0#32 0#32

/-- `EncSeq(c)`: the septets of a character (40_alphabet.md rule R101). It reads only the ROM. -/
def encSeq (cfg : Config) (c : CharVal) : List Septet :=
  match cfg.basicFind c with
  | some i => [i]
  | none =>
    match cfg.extFind c with
    | some j => [escSeptet, j]
    | none => [spSeptet]

/-- The octet `PKS` emits: `(PK_CARRY | (v << PK_FILL)) & 0xFF`, the shift losing no bit (41_pack.md rule R121; 00_scope.md
rule R8). -/
def packOctet (carry : BitVec 7) (v : Septet) (fill : BitVec 3) : Octet :=
  (carry.setWidth 16 ||| (v.setWidth 16 <<< fill.toNat)).setWidth 8

/-- What does not fit in it: `v >> (8 - PK_FILL)` (41_pack.md rule R121). -/
def packRest (v : Septet) (fill : BitVec 3) : BitVec 7 := v >>> (8 - fill.toNat)

/-- `PackBody(b)`: the octets and the state (41_pack.md rule R121). -/
def packBody (b : Octet) (s : State) : List Octet × State :=
  let v := septetOf b
  if s.pkFill = 0#3 then ([], s.setPack v (nextFill s.pkFill))
  else ([packOctet s.pkCarry v s.pkFill], s.setPack (packRest v s.pkFill) (nextFill s.pkFill))

/-- `PackBody` over septets in order (43_fused.md rule R161's loop). -/
def packAll : List Septet → State → List Octet × State
  | [], s => ([], s)
  | v :: vs, s =>
    let r := packBody (byteOfSeptet v) s
    let q := packAll vs r.2
    (r.1 ++ q.1, q.2)

/-- The octets the end of a pack call emits: the final partial octet, if there is one (41_pack.md rule R124). -/
def packTail (s : State) : List Octet :=
  if s.pkFill = 0#3 then [] else [s.pkCarry.setWidth 8]

/-- `t = UP_ACC | (b << UP_SHIFT)`, the shift losing no bit: at most 15 bits in any state (42_unpack.md rule R141). -/
def unpackWindow (acc : BitVec 7) (b : Octet) (shift : BitVec 3) : BitVec 16 :=
  acc.setWidth 16 ||| (b.setWidth 16 <<< shift.toNat)

/-- The first four lines of `UPO`: with `UP_PEND = 1` the held septet is emitted, the accumulator zeroed and the bit cleared
(42_unpack.md rule R141). -/
def releaseHeld (s : State) : List Septet × State :=
  if s.upPend then ([s.upAcc], s.setUnpack 0#7 s.upShift false) else ([], s)

/-- The rest of `UPO`: one septet of its own, the shift stepped, and the bit set if the shift wrapped to 0 (42_unpack.md rule
R141). -/
def unpackOne (b : Octet) (s : State) : List Septet × State :=
  let t := unpackWindow s.upAcc b s.upShift
  let shift := nextShift s.upShift
  ([t.setWidth 7], s.setUnpack ((t >>> 7).setWidth 7) shift (if shift = 0#3 then true else s.upPend))

/-- `UnpackBody(b)`: the septets and the state (42_unpack.md rule R141). -/
def unpackBody (b : Octet) (s : State) : List Septet × State :=
  let h := releaseHeld s
  let r := unpackOne b h.2
  (h.1 ++ r.1, r.2)

/-- The body of the end of an unpack call: leftover bits, or the guarded septet, are discarded (42_unpack.md rule R144). -/
def unpackEnd (s : State) : State := s.setUnpack 0#7 0#3 false

/-- `DecBody(b)`: the characters and the state (40_alphabet.md rule R105; escape after escape by rule R106: log entry 7). -/
def decBody (b : Octet) (s : State) : List CharVal × State :=
  match s.decEsc with
  | .escaped => ([(s.cfg.extRead b.toNat).getD spChar], s.setDec .normal)
  | .normal =>
    if b = byteOfSeptet escSeptet then ([], s.setDec .escaped)
    else if b.toNat < 0x80 then ([s.cfg.basicRead (septetOf b)], s)
    else ([qmChar], s)

/-- `DecBody` over septets in order (43_fused.md rule R164's loop). -/
def decAll : List Septet → State → List CharVal × State
  | [], s => ([], s)
  | x :: xs, s =>
    let r := decBody (byteOfSeptet x) s
    let q := decAll xs r.2
    (r.1 ++ q.1, q.2)

/-- The body of the end of a decode call (40_alphabet.md rule R108). -/
def decEnd (s : State) : State := s.setDec .normal

/-- `raise IllegalCommand(w)`, the block's one exception: the first illegal word is recorded, `STATUS.ILL` is set, nothing
else changes and no token is emitted (60_exceptions.md rule R201). Nothing returns from it: the block takes the next command
as usual, and only `CLR` and reset undo it (rules R205 and R206). -/
def raiseIllegal (w : Word) (s : State) : State :=
  s.setErr (setStatusIll s.status) (if statusIll s.status then s.errcmd else w)

/-- The reset input: every register takes its reset value and the output buffer is emptied; the ROM is not affected
(70_reset_and_hazards.md rule R220). What the host has presented, was handed and will do is the host's (log entry 8). -/
def State.resetInput (s : State) : State := s.clearRegisters.setOutBuf []

/-- The output buffer has room for two tokens, "the most any command emits": the condition to accept a command word
(30_encoding.md rule R70). -/
def State.hasRoom (s : State) : Bool := decide (s.outBuf.length + 2 ≤ s.cfg.outDepth)

/-- The host takes the oldest token from the output port; with none there, nothing happens (log entry 9). -/
def State.readToken (s : State) : State :=
  match s.outBuf with
  | [] => s
  | t :: ts => (s.setOutBuf ts).deliver [.token t]

/-- The host takes every token on the output port, in order. -/
def State.drain (s : State) : State := (s.setOutBuf []).deliver (s.outBuf.map .token)

/-- One act of the host. A sideband read has no side effect on the block (10_state.md rule R30). -/
def hostAct (a : HostAct) (s : State) : State :=
  match a with
  | .present w => s.setCmdPort (s.cmdPort ++ [w])
  | .readToken => s.readToken
  | .readSideband r => s.deliver [.sideband r (sidebandValue r s)]
  | .assertReset => s.resetInput

end Sys2Proof.Machine
end

