-- ==== Sys2Proof/Machine/Alphabet.lean ====
section
/-! DEFINITION. The alphabet family: `ENC`, `DEC` and `DECE` (spec 40_alphabet.md). -/

namespace Sys2Proof.Machine

/-- `ENC c` (rule R101). -/
def execEnc (c : CharVal) (s : State) : Host.Outcome State Fault Refusal :=
  .next (s.emit ((encSeq s.cfg c).map .sept))

/-- `DEC b` (rule R105). -/
def execDec (b : Octet) (s : State) : Host.Outcome State Fault Refusal :=
  let r := decBody b s
  .next (r.2.emit (r.1.map .char))

/-- `DECE` (rule R108): back to `NORMAL`, no token; a trailing escape gives no character. -/
def execDece (s : State) : Host.Outcome State Fault Refusal := .next (decEnd s)

end Sys2Proof.Machine
end

