-- ==== Sys2Proof/Machine/Control.lean ====
section
/-! DEFINITION. The control family: `NOP` and `CLR` (spec 44_control.md). -/

namespace Sys2Proof.Machine

/-- `NOP` (rule R180): no effect. -/
def execNop (s : State) : Host.Outcome State Fault Refusal := .next s

/-- `CLR` (rule R182): every register takes its reset value; the output buffer keeps its tokens. -/
def execClr (s : State) : Host.Outcome State Fault Refusal := .next s.clearRegisters

end Sys2Proof.Machine
end

