-- ==== Sys2Proof/Machine/Fused.lean ====
section
/-! DEFINITION. The fused family: `ENCP`, `UPD` and `UPDE` (spec 43_fused.md). -/

namespace Sys2Proof.Machine

/-- `ENCP c` (rule R161): the septets of the character are packed; no SEPT token. -/
def execEncp (c : CharVal) (s : State) : Host.Outcome State Fault Refusal :=
  let r := packAll (encSeq s.cfg c) s
  .next (r.2.emit (r.1.map .oct))

/-- `UPD b` (rule R164): the septets of the octet are decoded; no SEPT token. -/
def execUpd (b : Octet) (s : State) : Host.Outcome State Fault Refusal :=
  let u := unpackBody b s
  let r := decAll u.1 u.2
  .next (r.2.emit (r.1.map .char))

/-- `UPDE` (rule R167): the bodies of `UPE` and `DECE`, no token. -/
def execUpde (s : State) : Host.Outcome State Fault Refusal := .next (decEnd (unpackEnd s))

end Sys2Proof.Machine
end

