-- ==== Sys2Proof/Machine/Pack.lean ====
section
/-! DEFINITION. The pack family: `PKS` and `PKF` (spec 41_pack.md). -/

namespace Sys2Proof.Machine

/-- `PKS b` (rule R121). -/
def execPks (b : Octet) (s : State) : Host.Outcome State Fault Refusal :=
  let r := packBody b s
  .next (r.2.emit (r.1.map .oct))

/-- `PKF` (rule R124). -/
def execPkf (s : State) : Host.Outcome State Fault Refusal :=
  .next ((s.emit ((packTail s).map .oct)).setPack 0#7 0#3)

end Sys2Proof.Machine
end

