-- ==== Sys2Proof/Machine/Unpack.lean ====
section
/-! DEFINITION. The unpack family: `UPO` and `UPE` (spec 42_unpack.md). -/

namespace Sys2Proof.Machine

/-- `UPO b` (rule R141). -/
def execUpo (b : Octet) (s : State) : Host.Outcome State Fault Refusal :=
  let r := unpackBody b s
  .next (r.2.emit (r.1.map .sept))

/-- `UPE` (rule R144): the registers are zeroed, no token. -/
def execUpe (s : State) : Host.Outcome State Fault Refusal := .next (unpackEnd s)

end Sys2Proof.Machine
end

