-- ==== Sys2Proof/Machine/Dispatch.lean ====
section
/-! DEFINITION. The dispatch of a command to its meaning (spec 30_encoding.md rule R73). -/

namespace Sys2Proof.Machine

def exec (i : Instr) (s : State) : Host.Outcome State Fault Refusal :=
  match i with
  | .nop => Sys2Proof.Machine.execNop s
  | .clr => Sys2Proof.Machine.execClr s
  | .enc c => Sys2Proof.Machine.execEnc c s
  | .encp c => Sys2Proof.Machine.execEncp c s
  | .pks b => Sys2Proof.Machine.execPks b s
  | .pkf => Sys2Proof.Machine.execPkf s
  | .upo b => Sys2Proof.Machine.execUpo b s
  | .upe => Sys2Proof.Machine.execUpe s
  | .dec b => Sys2Proof.Machine.execDec b s
  | .dece => Sys2Proof.Machine.execDece s
  | .upd b => Sys2Proof.Machine.execUpd b s
  | .upde => Sys2Proof.Machine.execUpde s

end Sys2Proof.Machine
end

