-- ==== Sys2Proof/Machine/Command.lean ====
section
/-! DEFINITION. The command port: which word is accepted and when, what a word does, and what happens when none is accepted
(spec 30_encoding.md rule R70, 60_exceptions.md rule R201, 70_reset_and_hazards.md rules R220 and R230). -/

namespace Sys2Proof.Machine

/-- What an accepted command word does: the command it names, or `IllegalCommand` (00_scope.md rule R10). -/
def executeWord (w : Word) (s : State) : Host.Outcome State Fault Refusal :=
  match decode w with
  | .ok i => exec i s
  | .error _ => .next (raiseIllegal w s)

/-- Between commands: the host's next act; with none left the block holds its registers (60_exceptions.md rule R213, log
entry 10). -/
def betweenCommands (s : State) : Host.Outcome State Fault Refusal :=
  match s.hostActs with
  | [] => .next s
  | a :: as => .next (hostAct a (s.setHostActs as))

/-- One step of the block. The oldest word on the command port is accepted when the output buffer has room for two tokens
(30_encoding.md rule R70), and a presented word that can be accepted goes before the host's next act; else the host acts. -/
def blockStep (s : State) : Host.Outcome State Fault Refusal :=
  match s.cmdPort with
  | [] => betweenCommands s
  | w :: ws => if s.hasRoom then executeWord w (s.setCmdPort ws) else betweenCommands s

/-- The block built with the parameters `cfg`, right after its first reset. "A model must refuse a parameter value that breaks
any of these conditions" (00_scope.md rule R7): with such parameters there is no block. -/
def State.build (cfg : Config) : Host.Outcome State Fault Refusal :=
  if cfg.wf then .next { State.reset with cfg := cfg } else .refused .badParameters

/-- Put a word where the next step takes its command from: at the head of the command port, the host having taken the waiting
tokens if there is no room for two more. -/
def State.placeWord (s : State) (w : Word) : State :=
  let r := if s.hasRoom then s else s.drain
  r.setCmdPort (w :: s.cmdPort)

end Sys2Proof.Machine
end

