-- ==== Sys2Proof/Machine/Step.lean ====
section
/-! DEFINITION. The step of the block (spec 00_scope.md rule R10). The block fetches nothing: the host supplies the command
words (10_state.md rule R21), and a step takes the oldest one from the command port. -/

namespace Sys2Proof.Machine

/-- One step. It always answers a next state: the block never stops (00_scope.md rule R10). -/
def step (s : State) : Host.Outcome State Fault Refusal := blockStep s

/-- `s` with a command word presented so that the very next step accepts it (log entry 11). A command is one word of 32 bits
(30_encoding.md rule R75); the bits above `nbits` are 0. -/
def State.withFetchWord (s : State) (nbits w : Nat) : State :=
  s.placeWord (BitVec.ofNat 32 (w % 2 ^ nbits))

end Sys2Proof.Machine
end

