-- ==== Sys2Proof/Machine/Assembler.lean ====
section
/-! DEFINITION. The assembler of the spec's notation (spec 30_encoding.md rules R77 and R78): a line of text to command words.
It runs on the host, outside the block; no step uses it. "An operand out of range for its form is an assembly error. The
assembler must refuse it and not truncate it." Where the notation is silent on a spelling, log entry 12 says what is taken. -/

namespace Sys2Proof.Machine

/-- Why a line is refused. The names are the model's. -/
inductive AsmError where
  /-- the first word is no mnemonic of rules R73 and R78 -/
  | unknownMnemonic
  /-- an operand that is missing, of the wrong spelling, or one too many -/
  | badOperand
  /-- an operand out of range for its form -/
  | outOfRange
  deriving DecidableEq, Repr

/-- The mnemonics of rule R73, with their `OP` values. -/
def mnemonicTable : List (List Char × BitVec 4) :=
  [(['N', 'O', 'P'], 0x0#4), (['C', 'L', 'R'], 0x1#4), (['E', 'N', 'C'], 0x2#4), (['E', 'N', 'C', 'P'], 0x3#4),
   (['P', 'K', 'S'], 0x4#4), (['P', 'K', 'F'], 0x5#4), (['U', 'P', 'O'], 0x6#4), (['U', 'P', 'E'], 0x7#4),
   (['D', 'E', 'C'], 0x8#4), (['D', 'E', 'C', 'E'], 0x9#4), (['U', 'P', 'D'], 0xA#4), (['U', 'P', 'D', 'E'], 0xB#4)]

/-- The pseudo-instructions of rule R78: their name, the `OP` of the command each element becomes, and the `OP` of the end
command, if there is one. -/
def pseudoTable : List (List Char × BitVec 4 × Option (BitVec 4)) :=
  [(['E', 'N', 'C', 'S', 'T', 'R'], 0x2#4, none), (['E', 'N', 'C', 'P', 'S', 'T', 'R'], 0x3#4, some 0x5#4),
   (['D', 'E', 'C', 'B', 'Y', 'T', 'E', 'S'], 0x8#4, some 0x9#4),
   (['U', 'P', 'D', 'B', 'Y', 'T', 'E', 'S'], 0xA#4, some 0xB#4),
   (['P', 'A', 'C', 'K', 'S', 'E', 'P', 'T'], 0x4#4, some 0x5#4),
   (['U', 'N', 'P', 'A', 'C', 'K', 'O', 'C', 'T'], 0x6#4, some 0x7#4)]

/-- One command from its `OP` and its operand: "The assembled word is `(operand << 8) | OP`, with `RSV = 0`, and an operand of
0 for `NONE` forms" (rule R77). -/
def assembleCommand (op : BitVec 4) (operand : Option Nat) : Except AsmError Word :=
  match opcodeForm op, operand with
  | some .none, none => .ok (commandWord op 0#24)
  | some .char, some n => if n < 2 ^ 24 then .ok (commandWord op (BitVec.ofNat 24 n)) else .error .outOfRange
  | some .byte, some n => if n < 2 ^ 8 then .ok (commandWord op (BitVec.ofNat 24 n)) else .error .outOfRange
  | some _, _ => .error .badOperand
  | none, _ => .error .unknownMnemonic

/-- The commands of a pseudo-instruction, in order (rule R78). -/
def assembleEach (op : BitVec 4) (last : Option (BitVec 4)) : List Nat → Except AsmError (List Word)
  | [] =>
    match last with
    | none => .ok []
    | some e =>
      match assembleCommand e none with
      | .ok w => .ok [w]
      | .error r => .error r
  | n :: ns =>
    match assembleCommand op (some n), assembleEach op last ns with
    | .ok w, .ok ws => .ok (w :: ws)
    | .error r, _ => .error r
    | _, .error r => .error r

/-- White space between the parts of a line. -/
def isBlank (c : Char) : Bool := c == ' ' || c == '\t'

/-- Nothing is left of the line but blanks and a comment ("`;` starts a comment that runs to the end of the line"). -/
def atLineEnd (cs : List Char) : Bool :=
  match cs.dropWhile isBlank with
  | [] => true
  | c :: _ => c == ';'

/-- An operand ends at a blank, a comment or the end of the line. -/
def atOperandEnd (cs : List Char) : Bool :=
  match cs with
  | [] => true
  | c :: _ => isBlank c || c == ';'

/-- The value of a digit of base 10 or 16. -/
def digitValue (base : Nat) (c : Char) : Option Nat :=
  let n := c.toNat
  if 0x30 ≤ n ∧ n ≤ 0x39 then some (n - 0x30)
  else if base = 16 ∧ 0x41 ≤ n ∧ n ≤ 0x46 then some (n - 0x41 + 10)
  else if base = 16 ∧ 0x61 ≤ n ∧ n ≤ 0x66 then some (n - 0x61 + 10)
  else none

/-- The digits from here on, after those that make `acc`. -/
def readDigits (base acc : Nat) : List Char → Nat × List Char
  | [] => (acc, [])
  | c :: cs =>
    match digitValue base c with
    | some d => readDigits base (acc * base + d) cs
    | none => (acc, c :: cs)

/-- A number of at least one digit. -/
def readNumber (base : Nat) (cs : List Char) : Option (Nat × List Char) :=
  match cs with
  | [] => none
  | c :: _ => if (digitValue base c).isSome then some (readDigits base 0 cs) else none

/-- "a number (`0x..` or decimal)". -/
def readNumeral : List Char → Option (Nat × List Char)
  | '0' :: 'x' :: cs => readNumber 16 cs
  | cs => readNumber 10 cs

/-- "`'\f'` means U+000C, `'\n'` U+000A, `'\r'` U+000D and `'\\'` U+005C." -/
def escapeValue (c : Char) : Option Nat :=
  match c with
  | 'f' => some 0x0C
  | 'n' => some 0x0A
  | 'r' => some 0x0D
  | '\\' => some 0x5C
  | _ => none

/-- "A `CHAR` operand is written `'x'` (one character), as `U+XXXX` (hexadecimal code point), or as a number". -/
def readCharOperand : List Char → Option (Nat × List Char)
  | '\'' :: '\\' :: e :: '\'' :: cs => (escapeValue e).map fun n => (n, cs)
  | '\'' :: c :: '\'' :: cs => if c == '\\' then none else some (c.toNat, cs)
  | 'U' :: '+' :: cs => readNumber 16 cs
  | cs => readNumeral cs

/-- Operands up to the end of the line, at most `fuel` of them. -/
def readOperands (read : List Char → Option (Nat × List Char)) : Nat → List Char → Option (List Nat)
  | 0, cs => if atLineEnd cs then some [] else none
  | fuel + 1, cs =>
    if atLineEnd cs then some []
    else
      match read (cs.dropWhile isBlank) with
      | none => none
      | some (n, rest) =>
        if atOperandEnd rest then (readOperands read fuel rest).map fun ns => n :: ns else none

/-- A string operand `"t"`: its code points, not its UTF-8 or UTF-16 units (rule R78). A line with no string at all (a bare
`ENCSTR` or `ENCPSTR`) is refused, and only the empty string `""` is the empty operand list: DESIGN CHOICE, since rule R78
shows the form `"t"` alone and does not say whether the empty operand list may leave the quotes out (log entry 12). -/
def readString (cs : List Char) : Option (List Nat) :=
  match cs.dropWhile isBlank with
  | '"' :: body =>
    let r := body.span fun c => c != '"'
    match r.2 with
    | _ :: rest => if atLineEnd rest then some (r.1.map Char.toNat) else none
    | [] => none
  | _ => none

/-- The operands of a command, in the spelling of its form (rule R77). -/
def readCommandOperands (form : OperandForm) (cs : List Char) : Option (List Nat) :=
  match form with
  | .none => readOperands readNumeral cs.length cs
  | .char => readOperands readCharOperand cs.length cs
  | .byte => readOperands readNumeral cs.length cs

/-- One command of a line, after its mnemonic. -/
def assembleOperands (op : BitVec 4) (cs : List Char) : Except AsmError (List Word) :=
  match opcodeForm op with
  | none => .error .unknownMnemonic
  | some form =>
    match readCommandOperands form cs with
    | some [] =>
      match assembleCommand op none with
      | .ok w => .ok [w]
      | .error r => .error r
    | some [n] =>
      match assembleCommand op (some n) with
      | .ok w => .ok [w]
      | .error r => .error r
    | _ => .error .badOperand

/-- One pseudo-instruction of a line, after its name: a string for a command of the `CHAR` form, bytes for one of the `BYTE`
form (rule R78). -/
def assemblePseudo (op : BitVec 4) (last : Option (BitVec 4)) (cs : List Char) : Except AsmError (List Word) :=
  let operands := if opcodeForm op = some .char then readString cs else readOperands readNumeral cs.length cs
  match operands with
  | some ns => assembleEach op last ns
  | none => .error .badOperand

/-- The words of one line; a line that is blank but for a comment has none. -/
def assembleLine (line : List Char) : Except AsmError (List Word) :=
  if atLineEnd line then .ok []
  else
    let r := (line.dropWhile isBlank).span Char.isUpper
    if atOperandEnd r.2 then
      match mnemonicTable.lookup r.1, pseudoTable.lookup r.1 with
      | some op, _ => assembleOperands op r.2
      | none, some (op, last) => assemblePseudo op last r.2
      | none, none => .error .unknownMnemonic
    else .error .unknownMnemonic

/-- The words of a program, line after line. -/
def assembleProgram : List (List Char) → Except AsmError (List Word)
  | [] => .ok []
  | l :: ls =>
    match assembleLine l, assembleProgram ls with
    | .ok ws, .ok rest => .ok (ws ++ rest)
    | .error r, _ => .error r
    | _, .error r => .error r

end Sys2Proof.Machine
end

