-- ==== Sys2Proof/Machine/Calls.lean ====
section
/-! DEFINITION. Calls: a call of one of the source's functions is a sequence of commands on one engine that ends with that
engine's end command (spec 00_scope.md rule R13; the six pseudo-instructions of 30_encoding.md rule R78). -/

namespace Sys2Proof.Machine

/-- The commands one after another, each reading what the one before it left (20_memory.md rule R57), back-pressure left out:
it "changes no register and no token" (70_reset_and_hazards.md rule R230). -/
def execAll : List Instr → State → Host.Outcome State Fault Refusal
  | [], s => .next s
  | i :: is, s =>
    match exec i s with
    | .next t => execAll is t
    | .fault r => .fault r
    | .refused r => .refused r

/-- `ENCSTR`: `encode_gsm7_unpacked(t)` (rule R78). -/
def encStr (text : List CharVal) : List Instr := text.map .enc

/-- `ENCPSTR`: `encode_gsm7_packed(t)` (rule R78). -/
def encPStr (text : List CharVal) : List Instr := text.map .encp ++ [.pkf]

/-- `DECBYTES`: `decode_gsm7_unpacked(bytes)` (rule R78). -/
def decBytes (bs : List Octet) : List Instr := bs.map .dec ++ [.dece]

/-- `UPDBYTES`: `decode_gsm7_packed(bytes)` (rule R78). -/
def updBytes (bs : List Octet) : List Instr := bs.map .upd ++ [.upde]

/-- `PACKSEPT`: pack (rule R78). -/
def packSept (bs : List Octet) : List Instr := bs.map .pks ++ [.pkf]

/-- `UNPACKOCT`: unpack (rule R78). -/
def unpackOct (os : List Octet) : List Instr := os.map .upo ++ [.upe]

end Sys2Proof.Machine
end

