-- ==== Sys2Proof/Machine/Form.lean ====
section
/-! DEFINITION. What the engines compute over whole sequences, as the spec's equations give it: the packed form (spec
20_memory.md rule R51), the unpacked septets and the source's own unpack loop (42_unpack.md rule R140), and the text a
sequence of septets decodes to (40_alphabet.md rule R109). No meaning uses them: they are what the meanings are compared
with. -/

namespace Sys2Proof.Machine

/-- The little-endian bit string of a sequence of `w`-bit values, as a number: the sum over `i` of `x_i << (w*i)` (rule R51
for septets, rule R140 for octets). -/
def bitString {w : Nat} (xs : List (BitVec w)) : Nat :=
  (xs.zipIdx.map fun p => p.1.toNat <<< (w * p.2)).sum

/-- `m = ceil(7*n / 8)` (rule R51). -/
def packedLength (n : Nat) : Nat := (7 * n + 7) / 8

/-- The packed form of a septet sequence: `o_k = (B >> (8*k)) & 0xFF` for `k` in `0..m-1` (rule R51). -/
def packedForm (ss : List Septet) : List Octet :=
  (List.range (packedLength ss.length)).map fun k => BitVec.ofNat 8 (bitString ss >>> (8 * k))

/-- `N`: how many septets an unpack call of `m` octets emits (rule R140). -/
def unpackedLength (m : Nat) : Nat :=
  if m % 7 ≠ 0 ∨ m = 0 then 8 * m / 7 else 8 * m / 7 - 1

/-- The septets of an octet sequence: `u_j = (B >> (7*j)) & 0x7F` for `j` in `0..N-1` (rule R140). -/
def unpackedForm (os : List Octet) : List Septet :=
  (List.range (unpackedLength os.length)).map fun j => BitVec.ofNat 7 (bitString os >>> (7 * j))

/-- The source's unpack loop, as rule R140 quotes it, from the accumulator `septet` and the counter `shift`: "if shift == 0
and i is not the last octet index: emit (septet & 0x7F); septet = 0". -/
def sourceUnpackFrom (septet shift : Nat) : List Octet → List Septet
  | [] => []
  | o :: os =>
    let t := septet ||| (o.toNat <<< shift)
    let rest := t >>> 7
    let shift' := (shift + 1) % 7
    if shift' = 0 ∧ os ≠ [] then
      BitVec.ofNat 7 t :: BitVec.ofNat 7 rest :: sourceUnpackFrom 0 shift' os
    else BitVec.ofNat 7 t :: sourceUnpackFrom rest shift' os

/-- The source's unpack call (rule R140). -/
def sourceUnpack (os : List Octet) : List Septet := sourceUnpackFrom 0 0 os

/-- The septets of a text: the concatenated `EncSeq` of its characters (43_fused.md rule R162). -/
def encodeText (cfg : Config) (text : List CharVal) : List Septet := text.flatMap (encSeq cfg)

/-- The characters the state machine of 40_alphabet.md rule R109 emits for a sequence of bytes. -/
def decodeText (cfg : Config) : DecState → List Octet → List CharVal
  | _, [] => []
  | .normal, b :: bs =>
    if b.toNat = 0x1B then decodeText cfg .escaped bs
    else if b.toNat < 0x80 then cfg.basicRead (septetOf b) :: decodeText cfg .normal bs
    else qmChar :: decodeText cfg .normal bs
  | .escaped, b :: bs =>
    match cfg.extRead b.toNat with
    | some ch => ch :: decodeText cfg .normal bs
    | none => spChar :: decodeText cfg .normal bs

end Sys2Proof.Machine
end

