-- ==== Sys2Proof/Safety.lean ====
section
/-! DEFINITION. What claims are stated with: the invariant of the states a block can be in, and what it means for a run to go
on. -/

namespace Sys2Proof.Machine

/-- What holds of every state reachable from reset, for a block with well-formed parameters. -/
structure State.Inv (s : State) : Prop where
  /-- the parameters meet the conditions of 00_scope.md rule R7 -/
  params : s.cfg.wf = true
  /-- `PK_CARRY < 2^PK_FILL` (10_state.md rule R23) -/
  pack : s.pkCarry.toNat < 2 ^ s.pkFill.toNat
  /-- "`UP_SHIFT = 7` is never reached" (10_state.md rule R24) -/
  shift : s.upShift.toNat ≤ 6
  /-- "`UP_PEND = 1` implies `UP_SHIFT = 0`" (10_state.md rule R24) -/
  held : s.upPend = true → s.upShift = 0#3
  /-- "`UP_PEND = 0` implies `UP_ACC < 2^UP_SHIFT`" (10_state.md rule R24) -/
  unpack : s.upPend = false → s.upAcc.toNat < 2 ^ s.upShift.toNat
  /-- `STATUS[31:1]` is 0 (10_state.md rule R28) -/
  reserved : s.status.extractLsb' 1 31 = 0#31
  /-- `ERRCMD` "is 0 while `STATUS.ILL = 0`" (10_state.md rule R29) -/
  clean : statusIll s.status = false → s.errcmd = 0#32
  /-- while `STATUS.ILL = 1`, `ERRCMD` holds an illegal word (10_state.md rule R29), so it is not 0 -/
  recorded : statusIll s.status = true → legalWord s.errcmd = false
  /-- the output buffer holds no more tokens than it has room for -/
  buffer : s.outBuf.length ≤ s.cfg.outDepth

/-- A run from `s` never stops: however many steps, it answers a next state. -/
def State.GoesOn (s : State) : Prop := ∀ k, ∃ t, Sys2Proof.core.run k s = .next t

/-- The token a delivery holds, if it holds one. -/
def HostData.token? : HostData → Option Token
  | .token t => some t
  | .sideband _ _ => none

/-- Every token of the output stream so far, in order: those the host has taken, then those it has not. -/
def State.outputSoFar (s : State) : List Token := s.received.filterMap HostData.token? ++ s.outBuf

end Sys2Proof.Machine
end

