-- ==== Sys2Proof/Certificates/Slice0/Obligations.lean ====
section
/-! DEFINITION. The statements about the model. Each docstring names the rule of spec/ it formalises; where a statement rests
on a rule the spec itself marks as derived, or on a choice of the model, it says so. A state update is written out as a record,
so an equality with a next state is also the frame: every field not named keeps its value. -/

open Sys2Proof Sys2Proof.Machine

/-! ### Encoding -/

/-- Words written out from the spec's encodings decode to the commands they stand for, and four illegal words to none
(30_encoding.md rule R79, a rule the spec marks as derived). -/
def Obligations.WrittenWordsDecode : Prop :=
  decode 0x00000000#32 = .ok .nop ∧ decode 0x00000001#32 = .ok .clr ∧ decode 0x00004802#32 = .ok (.enc 0x48#24)
    ∧ decode 0x0020AC02#32 = .ok (.enc 0x20AC#24) ∧ decode 0x00006F03#32 = .ok (.encp 0x6F#24)
    ∧ decode 0x00004804#32 = .ok (.pks 0x48#8) ∧ decode 0x00000005#32 = .ok .pkf
    ∧ decode 0x0000C806#32 = .ok (.upo 0xC8#8) ∧ decode 0x00000007#32 = .ok .upe
    ∧ decode 0x00001B08#32 = .ok (.dec 0x1B#8) ∧ decode 0x00000009#32 = .ok .dece
    ∧ decode 0x0000FD0A#32 = .ok (.upd 0xFD#8) ∧ decode 0x0000000B#32 = .ok .upde
    ∧ ∀ w ∈ [0x0000000C#32, 0x00000010#32, 0x00000105#32, 0x00010004#32], ∀ i, decode w ≠ .ok i

/-- Decoding the word of any command gives the command back, with every operand at every value. -/
def Obligations.DecodeOfEncodeIsTheCommand : Prop :=
  ∀ i : Instr, decode (encode i) = .ok i

/-- Each legal word is the one word of the command it decodes to: no bit of a word is ignored. -/
def Obligations.EncodeOfDecodeIsTheWord : Prop :=
  ∀ (w : Word) (i : Instr), decode w = .ok i → encode i = w

/-- 30_encoding.md rule R74: which words are illegal, that an illegal word raises `IllegalCommand`, that every other word
names exactly one command and runs it, and how many legal words each operand form has. -/
def Obligations.IllegalWordsAreThoseOfRuleR74 : Prop :=
  (∀ w : Word, (∀ i, decode w ≠ .ok i) ↔
      (12 ≤ (w.extractLsb' 0 4).toNat ∨ w.extractLsb' 4 4 ≠ 0#4
        ∨ ((w.extractLsb' 0 4).toNat ∈ [0, 1, 5, 7, 9, 11] ∧ w.extractLsb' 8 24 ≠ 0#24)
        ∨ ((w.extractLsb' 0 4).toNat ∈ [4, 6, 8, 10] ∧ w.extractLsb' 16 16 ≠ 0#16)))
  ∧ (∀ (w : Word) (s : State), (∀ i, decode w ≠ .ok i) →
      executeWord w s = .next { s with
        errcmd := if s.status.getLsbD 0 then s.errcmd else w, status := s.status ||| 1#32 })
  ∧ (∀ (w : Word) (i : Instr), decode w = .ok i →
      (∀ j, decode w = .ok j → j = i) ∧ ∀ s, executeWord w s = exec i s)
  ∧ Nat.card { w : Word // (∃ i, decode w = .ok i) ∧ opcodeForm (opField w) = some .none } = 6
  ∧ Nat.card { w : Word // (∃ i, decode w = .ok i) ∧ opcodeForm (opField w) = some .char } = 2 * 2 ^ 24
  ∧ Nat.card { w : Word // (∃ i, decode w = .ok i) ∧ opcodeForm (opField w) = some .byte } = 4 * 256

/-- 30_encoding.md rule R76: the word of each kind of token, that a token's word determines it, and that a command appends at
most two tokens to the output list. -/
def Obligations.TokenWordsAndTokenCount : Prop :=
  (∀ v : Septet, (Token.sept v).word = (v.setWidth 32 <<< 8) ||| 0x1#32)
  ∧ (∀ v : Octet, (Token.oct v).word = (v.setWidth 32 <<< 8) ||| 0x2#32)
  ∧ (∀ c : CharVal, (Token.char c).word = (c.setWidth 32 <<< 8) ||| 0x3#32)
  ∧ (∀ t : Token, (t.word.extractLsb' 0 4).toNat ∈ [1, 2, 3] ∧ t.word.extractLsb' 4 4 = 0#4)
  ∧ (∀ v : Septet, (Token.sept v).word.extractLsb' 15 17 = 0#17)
  ∧ (∀ t u : Token, t.word = u.word → t = u)
  ∧ (∀ (i : Instr) (s t : State), exec i s = .next t → ∃ ts, ts.length ≤ 2 ∧ t.outBuf = s.outBuf ++ ts)

/-! ### The commands -/

/-- 44_control.md rule R180: `NOP` is exactly the word 0, any other word with its `OP` is illegal, and it has no effect. -/
def Obligations.NopDoesNothing : Prop :=
  (∀ w : Word, opField w = 0x0#4 → if w = 0#32 then decode w = .ok .nop else ∀ i, decode w ≠ .ok i)
  ∧ ∀ s : State, exec .nop s = .next s

/-- 44_control.md rule R182: `CLR` is exactly the word 1, it returns every register to its reset value and keeps the output
buffer; no other command clears `STATUS` and `ERRCMD`, and no command empties the output buffer. -/
def Obligations.ClrReturnsEveryRegisterToReset : Prop :=
  (∀ w : Word, opField w = 0x1#4 → if w = 1#32 then decode w = .ok .clr else ∀ i, decode w ≠ .ok i)
  ∧ (∀ s : State, exec .clr s = .next { s with
      pkCarry := 0#7, pkFill := 0#3, upAcc := 0#7, upShift := 0#3, upPend := false, decEsc := .normal,
      status := 0#32, errcmd := 0#32 })
  ∧ (∀ (i : Instr) (s t : State), i ≠ .clr → exec i s = .next t → t.status = s.status ∧ t.errcmd = s.errcmd)
  ∧ (∀ (i : Instr) (s t : State), exec i s = .next t → ∃ ts, t.outBuf = s.outBuf ++ ts)

/-- 40_alphabet.md rule R101: `ENC` gives the basic code, or the escape and the extension code, or the space septet, and
changes nothing but the output; a value that is no Unicode scalar value, and U+0000, miss both default tables. -/
def Obligations.EncEmitsTheSeptetsOfTheCharacter : Prop :=
  (∀ w : Word, opField w = 0x2#4 →
      if rsvField w = 0#4 then decode w = .ok (.enc (w.extractLsb' 8 24)) else ∀ i, decode w ≠ .ok i)
  ∧ (∀ (c : CharVal) (s : State), exec (.enc c) s = .next { s with
      outBuf := s.outBuf ++ (match s.cfg.basicFind c, s.cfg.extFind c with
        | some i, _ => [.sept i]
        | none, some j => [.sept 0x1B#7, .sept j]
        | none, none => [.sept 0x20#7]) })
  ∧ (∀ c : CharVal, (0xD800 ≤ c.toNat ∧ c.toNat ≤ 0xDFFF ∨ 0x110000 ≤ c.toNat ∨ c = 0#24) →
      Config.default.basicFind c = none ∧ Config.default.extFind c = none)
  ∧ Config.default.basicFind 0x20#24 = some 0x20#7 ∧ Config.default.basicFind 0x1B#24 = some 0x1B#7

/-- 40_alphabet.md rule R105: `DEC` in each decode state and for each class of byte; at most one token. -/
def Obligations.DecDecodesOneByte : Prop :=
  (∀ w : Word, opField w = 0x8#4 →
      if rsvField w = 0#4 ∧ dataHiField w = 0#16 then decode w = .ok (.dec (w.extractLsb' 8 8))
      else ∀ i, decode w ≠ .ok i)
  ∧ ∀ (b : Octet) (s : State), exec (.dec b) s = .next (
      if s.decEsc = .escaped then
        match s.cfg.extRead b.toNat with
        | some ch => { s with decEsc := .normal, outBuf := s.outBuf ++ [.char ch] }
        | none => { s with decEsc := .normal, outBuf := s.outBuf ++ [.char 0x20#24] }
      else if b = 0x1B#8 then { s with decEsc := .escaped }
      else if b.toNat < 0x80 then
        { s with outBuf := s.outBuf ++ [.char (s.cfg.basicRead (BitVec.ofNat 7 b.toNat))] }
      else { s with outBuf := s.outBuf ++ [.char 0x3F#24] })

/-- 40_alphabet.md rule R108: `DECE` is exactly the word 9, and returns to `NORMAL` with no token. -/
def Obligations.DeceReturnsToNormal : Prop :=
  (∀ w : Word, opField w = 0x9#4 → if w = 9#32 then decode w = .ok .dece else ∀ i, decode w ≠ .ok i)
  ∧ ∀ s : State, exec .dece s = .next { s with decEsc := .normal }

/-- 41_pack.md rule R121: `PKS` on an empty and on a filled packer, the shifts losing no bit. -/
def Obligations.PksPacksOneSeptet : Prop :=
  (∀ w : Word, opField w = 0x4#4 →
      if rsvField w = 0#4 ∧ dataHiField w = 0#16 then decode w = .ok (.pks (w.extractLsb' 8 8))
      else ∀ i, decode w ≠ .ok i)
  ∧ ∀ (b : Octet) (s : State),
      let v := b.toNat &&& 0x7F
      exec (.pks b) s = .next (
        if s.pkFill.toNat = 0 then { s with pkCarry := BitVec.ofNat 7 v, pkFill := 7#3 }
        else { s with
          outBuf := s.outBuf ++ [.oct (BitVec.ofNat 8 ((s.pkCarry.toNat ||| (v <<< s.pkFill.toNat)) &&& 0xFF))]
          pkCarry := BitVec.ofNat 7 (v >>> (8 - s.pkFill.toNat))
          pkFill := BitVec.ofNat 3 (s.pkFill.toNat - 1) })

/-- 41_pack.md rule R124: `PKF` is exactly the word 5; it emits the final partial octet, if there is one, its high bits 0, and
zeroes the PACK registers. -/
def Obligations.PkfEmitsTheFinalPartialOctet : Prop :=
  (∀ w : Word, opField w = 0x5#4 → if w = 5#32 then decode w = .ok .pkf else ∀ i, decode w ≠ .ok i)
  ∧ ∀ s : State, exec .pkf s = .next (
      if s.pkFill.toNat ≠ 0 then
        { s with outBuf := s.outBuf ++ [.oct (s.pkCarry.setWidth 8)], pkCarry := 0#7, pkFill := 0#3 }
      else { s with pkCarry := 0#7, pkFill := 0#3 })

/-- 42_unpack.md rule R141: `UPO` releases the held septet, emits one septet of its own, steps the shift and holds a whole
septet when the shift wraps, the shifts losing no bit. The shift is at most 6, as 10_state.md rule R24 has it (`State.Inv.shift`,
which every step keeps). -/
def Obligations.UpoUnpacksOneOctet : Prop :=
  (∀ w : Word, opField w = 0x6#4 →
      if rsvField w = 0#4 ∧ dataHiField w = 0#16 then decode w = .ok (.upo (w.extractLsb' 8 8))
      else ∀ i, decode w ≠ .ok i)
  ∧ ∀ (b : Octet) (s : State), s.upShift.toNat ≤ 6 →
      let held := if s.upPend then [Token.sept s.upAcc] else []
      let t := (if s.upPend then 0 else s.upAcc.toNat) ||| (b.toNat <<< s.upShift.toNat)
      let shift := (s.upShift.toNat + 1) % 7
      exec (.upo b) s = .next { s with
        outBuf := s.outBuf ++ held ++ [.sept (BitVec.ofNat 7 (t &&& 0x7F))]
        upAcc := BitVec.ofNat 7 (t >>> 7)
        upShift := BitVec.ofNat 3 shift
        upPend := decide (shift = 0) }

/-- 42_unpack.md rule R144: `UPE` is exactly the word 7, and zeroes the UNPACK registers with no token. -/
def Obligations.UpeDiscardsTheRest : Prop :=
  (∀ w : Word, opField w = 0x7#4 → if w = 7#32 then decode w = .ok .upe else ∀ i, decode w ≠ .ok i)
  ∧ ∀ s : State, exec .upe s = .next { s with upAcc := 0#7, upShift := 0#3, upPend := false }

/-- 43_fused.md rule R160: the four bodies are those of the unfused commands, the emitted values returned as a list; how many
values each list has; and the fused commands reuse them: `ENCP` is the septets of `EncSeq` each given to `PackBody`, `UPD` the
septets of `UnpackBody` each given to `DecBody`, and `UPDE` the bodies of `UPE` and `DECE`. -/
def Obligations.BodiesAreThoseOfTheUnfusedCommands : Prop :=
  (∀ (c : CharVal) (s : State),
      exec (.enc c) s = .next { s with outBuf := s.outBuf ++ (encSeq s.cfg c).map .sept }
      ∧ ((encSeq s.cfg c).length = 1 ∨ (encSeq s.cfg c).length = 2))
  ∧ (∀ (b : Octet) (s : State), ∃ carry fill, (packBody b s).2 = { s with pkCarry := carry, pkFill := fill }
      ∧ exec (.pks b) s = .next { (packBody b s).2 with outBuf := s.outBuf ++ (packBody b s).1.map .oct }
      ∧ (packBody b s).1.length ≤ 1)
  ∧ (∀ (b : Octet) (s : State), ∃ acc shift pend,
      (unpackBody b s).2 = { s with upAcc := acc, upShift := shift, upPend := pend }
      ∧ exec (.upo b) s = .next { (unpackBody b s).2 with outBuf := s.outBuf ++ (unpackBody b s).1.map .sept }
      ∧ ((unpackBody b s).1.length = 1 ∨ (unpackBody b s).1.length = 2))
  ∧ (∀ (b : Octet) (s : State), ∃ d, (decBody b s).2 = { s with decEsc := d }
      ∧ exec (.dec b) s = .next { (decBody b s).2 with outBuf := s.outBuf ++ (decBody b s).1.map .char }
      ∧ (decBody b s).1.length ≤ 1)
  ∧ (∀ (c : CharVal) (s : State),
      let r := (encSeq s.cfg c).foldl
        (fun (a : List Octet × State) x =>
          let p := packBody (x.setWidth 8) a.2
          (a.1 ++ p.1, p.2)) ([], s)
      exec (.encp c) s = .next { r.2 with outBuf := s.outBuf ++ r.1.map .oct })
  ∧ (∀ (b : Octet) (s : State),
      let r := (unpackBody b s).1.foldl
        (fun (a : List CharVal × State) x =>
          let p := decBody (x.setWidth 8) a.2
          (a.1 ++ p.1, p.2)) ([], (unpackBody b s).2)
      exec (.upd b) s = .next { r.2 with outBuf := s.outBuf ++ r.1.map .char })
  ∧ ∀ s : State, ∃ t, exec .upe s = .next t ∧ exec .upde s = exec .dece t

/-- 43_fused.md rule R161: `ENCP` packs the septets of the character in order; how many octets that gives. -/
def Obligations.EncpPacksTheSeptetsOfTheCharacter : Prop :=
  (∀ w : Word, opField w = 0x3#4 →
      if rsvField w = 0#4 then decode w = .ok (.encp (w.extractLsb' 8 24)) else ∀ i, decode w ≠ .ok i)
  ∧ ∀ (c : CharVal) (s : State),
      let r := (encSeq s.cfg c).foldl
        (fun (a : List Octet × State) x =>
          let p := packBody (x.setWidth 8) a.2
          (a.1 ++ p.1, p.2)) ([], s)
      exec (.encp c) s = .next { r.2 with outBuf := s.outBuf ++ r.1.map .oct }
      ∧ (∃ carry fill, r.2 = { s with pkCarry := carry, pkFill := fill })
      ∧ ((encSeq s.cfg c).length = 1 → r.1.length = if s.pkFill.toNat = 0 then 0 else 1)
      ∧ ((encSeq s.cfg c).length = 2 → r.1.length = if s.pkFill.toNat ≤ 1 then 1 else 2)
      ∧ (s.cfg.basicFind c = none → s.cfg.extFind c = none → encSeq s.cfg c = [0x20#7])

/-- 43_fused.md rule R164: `UPD` decodes the septets of the octet in order; no byte that reaches the decoder is 128 or more;
at most two tokens. -/
def Obligations.UpdDecodesTheSeptetsOfTheOctet : Prop :=
  (∀ w : Word, opField w = 0xA#4 →
      if rsvField w = 0#4 ∧ dataHiField w = 0#16 then decode w = .ok (.upd (w.extractLsb' 8 8))
      else ∀ i, decode w ≠ .ok i)
  ∧ ∀ (b : Octet) (s : State),
      let u := unpackBody b s
      let r := u.1.foldl
        (fun (a : List CharVal × State) x =>
          let p := decBody (x.setWidth 8) a.2
          (a.1 ++ p.1, p.2)) ([], u.2)
      exec (.upd b) s = .next { r.2 with outBuf := s.outBuf ++ r.1.map .char }
      ∧ (∃ acc shift pend d,
          r.2 = { s with upAcc := acc, upShift := shift, upPend := pend, decEsc := d })
      ∧ (∀ x ∈ u.1, ((x.setWidth 8 : Octet)).toNat < 0x80)
      ∧ r.1.length ≤ 2

/-- 43_fused.md rule R167: `UPDE` is exactly the word 0xB, and zeroes the UNPACK and DECODE registers with no token. -/
def Obligations.UpdeEndsThePackedDecodeCall : Prop :=
  (∀ w : Word, opField w = 0xB#4 → if w = 0xB#32 then decode w = .ok .upde else ∀ i, decode w ≠ .ok i)
  ∧ ∀ s : State, exec .upde s = .next { s with
      upAcc := 0#7, upShift := 0#3, upPend := false, decEsc := .normal }

/-- Which registers a command may write: the table of 10_state.md rule R31, a rule the spec marks as derived. Every command
leaves the command port, the host's acts, what the host received and the parameters alone. -/
def Obligations.RegistersACommandMayWrite : Prop :=
  ∀ (i : Instr) (s t : State), exec i s = .next t →
    (t.cmdPort = s.cmdPort ∧ t.hostActs = s.hostActs ∧ t.received = s.received ∧ t.cfg = s.cfg)
    ∧ (i ≠ .clr → t.status = s.status ∧ t.errcmd = s.errcmd)
    ∧ (i ≠ .clr → i ≠ .pkf → (∀ b, i ≠ .pks b) → (∀ c, i ≠ .encp c) →
        t.pkCarry = s.pkCarry ∧ t.pkFill = s.pkFill)
    ∧ (i ≠ .clr → i ≠ .upe → i ≠ .upde → (∀ b, i ≠ .upo b) → (∀ b, i ≠ .upd b) →
        t.upAcc = s.upAcc ∧ t.upShift = s.upShift ∧ t.upPend = s.upPend)
    ∧ (i ≠ .clr → i ≠ .dece → i ≠ .upde → (∀ b, i ≠ .dec b) → (∀ b, i ≠ .upd b) → t.decEsc = s.decEsc)
    ∧ (i ∈ [.nop, .clr, .upe, .dece, .upde] → t.outBuf = s.outBuf)

/-! ### The ROM -/

/-- 20_memory.md rule R43: with an injective table, `BasicFind(c)` is the unique code whose entry is `c`, among all 128 codes,
and `none` if there is no such code. -/
def Obligations.BasicFindIsTheUniqueCode : Prop :=
  ∀ (cfg : Config) (c : CharVal), cfg.wf = true →
    (∀ i, cfg.basicFind c = some i ↔ cfg.basicRead i = c)
    ∧ (cfg.basicFind c = none ↔ ∀ i, cfg.basicRead i ≠ c)
    ∧ (∀ i j, cfg.basicRead i = c → cfg.basicRead j = c → i = j)

/-- 20_memory.md rule R46, with rule R45 (which the spec marks as derived): the forward and the reverse lookup of the extension
table agree, each is unique, and no index of 128 or more is a code. -/
def Obligations.ExtensionLookupsAgree : Prop :=
  ∀ (cfg : Config) (c : CharVal), cfg.wf = true →
    (∀ i, cfg.extFind c = some i ↔ cfg.extRead i.toNat = some c)
    ∧ (cfg.extFind c = none ↔ ∀ n, cfg.extRead n ≠ some c)
    ∧ (∀ i, cfg.extRead i.toNat = some c ↔ (i, c) ∈ cfg.ext)
    ∧ (∀ n, 128 ≤ n → cfg.extRead n = none)
    ∧ (∀ m n, cfg.extRead m = some c → cfg.extRead n = some c → m = n)

/-- The default tables (20_memory.md rules R42 and R44): the entries the source fixes, the runs of digits and letters, every
other row of the basic table (a code and its character), the ten extension codes and no other, and that the two tables share no
character. The rows the source does not fix are the spec's own general knowledge (log entry 2). -/
def Obligations.DefaultTablesHoldTheSpecsEntries : Prop :=
  let basic := Config.default.basicRead
  let ext := Config.default.extRead
  (basic 0x48#7 = 0x48#24 ∧ basic 0x65#7 = 0x65#24 ∧ basic 0x6C#7 = 0x6C#24 ∧ basic 0x6F#7 = 0x6F#24
    ∧ basic 0x20#7 = 0x20#24 ∧ basic 0x1B#7 = 0x1B#24)
  ∧ (∀ i : Septet, (0x30 ≤ i.toNat ∧ i.toNat ≤ 0x39 ∨ 0x41 ≤ i.toNat ∧ i.toNat ≤ 0x5A
      ∨ 0x61 ≤ i.toNat ∧ i.toNat ≤ 0x7A) → basic i = i.setWidth 24)
  ∧ (basic 0x00#7 = 0x40#24 ∧ basic 0x02#7 = 0x24#24 ∧ basic 0x24#7 = 0xA4#24 ∧ basic 0x40#7 = 0xA1#24)
  ∧ (∀ e ∈ ([(0x00, 0x0040), (0x01, 0x00A3), (0x02, 0x0024), (0x03, 0x00A5), (0x04, 0x00E8), (0x05, 0x00E9),
      (0x06, 0x00F9), (0x07, 0x00EC), (0x08, 0x00F2), (0x09, 0x00C7), (0x0A, 0x000A), (0x0B, 0x00D8)]
     ++ [(0x0C, 0x00F8), (0x0D, 0x000D), (0x0E, 0x00C5), (0x0F, 0x00E5), (0x10, 0x0394), (0x11, 0x005F),
      (0x12, 0x03A6), (0x13, 0x0393), (0x14, 0x039B), (0x15, 0x03A9), (0x16, 0x03A0), (0x17, 0x03A8)]
     ++ [(0x18, 0x03A3), (0x19, 0x0398), (0x1A, 0x039E), (0x1B, 0x001B), (0x1C, 0x00C6), (0x1D, 0x00E6),
      (0x1E, 0x00DF), (0x1F, 0x00C9), (0x20, 0x0020), (0x21, 0x0021), (0x22, 0x0022), (0x23, 0x0023)]
     ++ [(0x24, 0x00A4), (0x25, 0x0025), (0x26, 0x0026), (0x27, 0x0027), (0x28, 0x0028), (0x29, 0x0029),
      (0x2A, 0x002A), (0x2B, 0x002B), (0x2C, 0x002C), (0x2D, 0x002D), (0x2E, 0x002E), (0x2F, 0x002F)]
     ++ [(0x3A, 0x003A), (0x3B, 0x003B), (0x3C, 0x003C), (0x3D, 0x003D), (0x3E, 0x003E), (0x3F, 0x003F),
      (0x40, 0x00A1), (0x5B, 0x00C4), (0x5C, 0x00D6), (0x5D, 0x00D1), (0x5E, 0x00DC), (0x5F, 0x00A7)]
     ++ [(0x60, 0x00BF), (0x7B, 0x00E4), (0x7C, 0x00F6), (0x7D, 0x00F1), (0x7E, 0x00FC), (0x7F, 0x00E0)]
     : List (Nat × Nat)),
      (basic (BitVec.ofNat 7 e.1)).toNat = e.2)
  ∧ (ext 0x0A = some 0x0C#24 ∧ ext 0x14 = some 0x5E#24 ∧ ext 0x28 = some 0x7B#24 ∧ ext 0x29 = some 0x7D#24
    ∧ ext 0x2F = some 0x5C#24 ∧ ext 0x3C = some 0x5B#24 ∧ ext 0x3D = some 0x7E#24 ∧ ext 0x3E = some 0x5D#24
    ∧ ext 0x40 = some 0x7C#24 ∧ ext 0x65 = some 0x20AC#24)
  ∧ (∀ n, n ∉ [0x0A, 0x14, 0x28, 0x29, 0x2F, 0x3C, 0x3D, 0x3E, 0x40, 0x65] → ext n = none)
  ∧ (∀ (n : Nat) (c : CharVal), ext n = some c → Config.default.basicFind c = none)

/-- 20_memory.md rule R40: no step of the block, be it a command, an act of the host or reset, changes the ROM (nor any other
parameter). -/
def Obligations.NoStepWritesTheRom : Prop :=
  ∀ s t : State, step s = .next t → t.cfg = s.cfg

/-- Only parameters that meet the conditions of 00_scope.md rule R7 make a block; others are refused. That the extension
table's list has rising codes is how the model writes a partial function (log entry 1). -/
def Obligations.IllFormedParametersAreRefused : Prop :=
  ∀ cfg : Config,
    State.build cfg =
      (if (∀ i j, cfg.basicRead i = cfg.basicRead j → i = j)
          ∧ (cfg.ext.map Prod.fst).Pairwise (· < ·)
          ∧ (∀ a ∈ cfg.ext, ∀ b ∈ cfg.ext, a.2 = b.2 → a = b)
          ∧ 2 ≤ cfg.outDepth
        then .next { State.reset with cfg := cfg } else .refused .badParameters)

/-! ### Laws of the engines over calls -/

/-- 10_state.md rule R22: `ENC` keeps no state and reads only the ROM. -/
def Obligations.EncIsAPureLookup : Prop :=
  ∀ (c : CharVal) (s s' : State), s.cfg = s'.cfg →
    ∃ ts, exec (.enc c) s = .next { s with outBuf := s.outBuf ++ ts }
      ∧ exec (.enc c) s' = .next { s' with outBuf := s'.outBuf ++ ts }

/-- 40_alphabet.md rule R102: an extension character costs the escape, first, and its code; a text of `n` characters gives
between `n` and `2n` septets. -/
def Obligations.TextOfNCharactersGivesNTo2NSeptets : Prop :=
  (∀ (cfg : Config) (c : CharVal) (j : Septet), cfg.basicFind c = none → cfg.extFind c = some j →
      encSeq cfg c = [0x1B#7, j])
  ∧ ∀ (text : List CharVal) (s : State), ∃ ss : List Septet,
      execAll (encStr text) s = .next { s with outBuf := s.outBuf ++ ss.map .sept }
      ∧ ss = encodeText s.cfg text ∧ text.length ≤ ss.length ∧ ss.length ≤ 2 * text.length

/-- 40_alphabet.md rule R103 (a rule the spec marks as derived): a character in neither table is encoded as a space is, for
both forms, in a block whose basic table holds the space at 0x20, as the source has it. -/
def Obligations.UnsupportedCharacterActsAsSpace : Prop :=
  ∀ (c : CharVal) (s : State), s.cfg.wf = true → s.cfg.basicRead 0x20#7 = 0x20#24 →
    s.cfg.basicFind c = none → s.cfg.extFind c = none →
      exec (.enc c) s = exec (.enc 0x20#24) s ∧ exec (.encp c) s = exec (.encp 0x20#24) s
      ∧ exec (.enc c) s = .next { s with outBuf := s.outBuf ++ [.sept 0x20#7] }

/-- 40_alphabet.md rule R106: an escape after an escape is looked up in the extension table like any other code. The source
calls the case undefined; the spec's decision D13 settles it (log entry 7). -/
def Obligations.EscapeAfterEscapeIsAnExtensionCode : Prop :=
  (∀ s : State, s.decEsc = .escaped → exec (.dec 0x1B#8) s = .next { s with
      decEsc := .normal, outBuf := s.outBuf ++ [.char ((s.cfg.extRead 0x1B).getD 0x20#24)] })
  ∧ Config.default.extRead 0x1B = none
  ∧ decodeText Config.default .normal [0x1B#8, 0x1B#8, 0x28#8] = [0x20#24, 0x28#24]

/-- 40_alphabet.md rule R109 (a rule the spec marks as derived): a decode call emits what the state machine of its table emits,
and ends in `NORMAL`. -/
def Obligations.DecodeCallRunsTheStateMachine : Prop :=
  ∀ (bs : List Octet) (s : State),
    execAll (decBytes bs) s = .next { s with
      decEsc := .normal, outBuf := s.outBuf ++ (decodeText s.cfg s.decEsc bs).map .char }

/-- 41_pack.md rule R122 (a rule the spec marks as derived): the fill and the number of octets after `n` septets. -/
def Obligations.FillAfterNSeptets : Prop :=
  ∀ (bs : List Octet) (s : State), s.pkFill = 0#3 →
    ∃ t os, execAll (bs.map .pks) s = .next t ∧ t.outBuf = s.outBuf ++ os
      ∧ t.pkFill.toNat = 7 * bs.length % 8 ∧ os.length = 7 * bs.length / 8

/-- 41_pack.md rule R123 (a rule the spec marks as derived): from an idle packer, a pack call emits exactly the packed form of
its septets (20_memory.md rule R51), and leaves the packer idle. -/
def Obligations.PackCallEmitsThePackedForm : Prop :=
  ∀ (bs : List Octet) (s : State), packIdle s = true →
    execAll (packSept bs) s = .next { s with
      outBuf := s.outBuf ++ (packedForm (bs.map fun b => BitVec.ofNat 7 (b.toNat &&& 0x7F))).map .oct }

/-- 41_pack.md rules R125 and R126 (rules the spec marks as derived): a pack call of `n` septets emits `ceil(7n/8)` octets, and
the padding is 0: the octets, as one bit string, hold the septets' bit string and nothing above it. -/
def Obligations.PackedLengthAndZeroPadding : Prop :=
  ∀ (ss : List Septet) (s : State), packIdle s = true →
    ∃ (os : List Octet) (t : State), execAll (packSept (ss.map fun v => v.setWidth 8)) s = .next t
      ∧ t.outBuf = s.outBuf ++ os.map .oct
      ∧ os.length = (7 * ss.length + 7) / 8
      ∧ 7 * ss.length ≤ 8 * os.length ∧ 8 * os.length ≤ 7 * ss.length + 7
      ∧ bitString os = bitString ss

/-- 42_unpack.md rule R140: an unpack call emits what the source's loop emits, which is the `N` septets of the equation, the
last full septet dropped when the octet count is a multiple of 7. -/
def Obligations.UnpackCallEmitsTheSourceLoopsSeptets : Prop :=
  ∀ (os : List Octet) (s : State), unpackIdle s = true →
    execAll (unpackOct os) s = .next { s with outBuf := s.outBuf ++ (sourceUnpack os).map .sept }
    ∧ sourceUnpack os = unpackedForm os
    ∧ (sourceUnpack os).length =
        if os.length % 7 ≠ 0 ∨ os.length = 0 then 8 * os.length / 7 else 8 * os.length / 7 - 1

/-- 42_unpack.md rule R146 (a rule the spec marks as derived): packing `n` septets and unpacking the octets gives the septets
back, but for the last one when `n` is a non-zero multiple of 8. -/
def Obligations.UnpackInvertsPackButForFullGroups : Prop :=
  ∀ (ss : List Septet) (s : State), packIdle s = true → unpackIdle s = true →
    ∃ (os : List Octet) (t u : State),
      execAll (packSept (ss.map fun v => v.setWidth 8)) s = .next t ∧ t.outBuf = s.outBuf ++ os.map .oct
      ∧ execAll (unpackOct os) t = .next u
      ∧ u.outBuf = t.outBuf ++ (if ss.length % 8 ≠ 0 then ss else ss.dropLast).map .sept

/-- 42_unpack.md rule R147 (a rule the spec marks as derived): two octet sequences of the same length that agree on the bits of
the emitted septets give the same septets. -/
def Obligations.PaddingIsIgnored : Prop :=
  ∀ (os os' : List Octet) (s : State), unpackIdle s = true → os.length = os'.length →
    bitString os % 2 ^ (7 * unpackedLength os.length) = bitString os' % 2 ^ (7 * unpackedLength os.length) →
      execAll (unpackOct os) s = execAll (unpackOct os') s
      ∧ ∃ t, execAll (unpackOct os) s = .next t

/-- 43_fused.md rule R162 (a rule the spec marks as derived): a packed encode call emits the packed form of the septets of the
text. -/
def Obligations.PackedEncodeCallPacksTheText : Prop :=
  ∀ (text : List CharVal) (s : State), packIdle s = true →
    execAll (encPStr text) s = .next { s with
      outBuf := s.outBuf ++ (packedForm (encodeText s.cfg text)).map .oct }

/-- 43_fused.md rule R165 (a rule the spec marks as derived): a packed decode call emits the text of the unpacked septets. -/
def Obligations.PackedDecodeCallDecodesTheSeptets : Prop :=
  ∀ (os : List Octet) (s : State), unpackIdle s = true → decIdle s = true →
    execAll (updBytes os) s = .next { s with
      outBuf := s.outBuf ++ (decodeText s.cfg .normal ((unpackedForm os).map fun v => v.setWidth 8)).map .char }

/-- 43_fused.md rule R163 (a rule the spec marks as derived): `ENCP c` is `ENC c`, its septets fed to `PKS`, the SEPT tokens
dropped. -/
def Obligations.EncpEqualsEncThenPks : Prop :=
  ∀ (c : CharVal) (s : State), ∃ (xs : List Septet) (t : State),
    exec (.enc c) s = .next { s with outBuf := s.outBuf ++ xs.map .sept }
    ∧ execAll (xs.map fun x => .pks (x.setWidth 8)) s = .next t
    ∧ exec (.encp c) s = .next t

/-- 43_fused.md rule R166 (a rule the spec marks as derived): `UPD b` is `UPO b`, its septets fed to `DEC`, the SEPT tokens
dropped. -/
def Obligations.UpdEqualsUpoThenDec : Prop :=
  ∀ (b : Octet) (s : State), ∃ (xs : List Septet) (t u : State),
    exec (.upo b) s = .next t ∧ t.outBuf = s.outBuf ++ xs.map .sept
    ∧ execAll (xs.map fun x => .dec (x.setWidth 8)) { t with outBuf := s.outBuf } = .next u
    ∧ exec (.upd b) s = .next u

/-- The source's unpacked round-trip (95_test_vectors.md L1-1 and L1-7, corrected by 90_conflicts.md C3): a text whose characters
are all in a table, and that avoids the character at basic 0x1B, is encoded and decoded back. -/
def Obligations.UnpackedRoundTrip : Prop :=
  ∀ (text : List CharVal) (s : State), s.cfg.wf = true → decIdle s = true →
    (∀ c ∈ text, c ≠ s.cfg.basicRead 0x1B#7
      ∧ ((s.cfg.basicFind c).isSome = true ∨ (s.cfg.extFind c).isSome = true)) →
    ∃ (xs : List Septet) (t u : State),
      execAll (encStr text) s = .next t ∧ t.outBuf = s.outBuf ++ xs.map .sept
      ∧ execAll (decBytes (xs.map fun x => x.setWidth 8)) t = .next u
      ∧ u.outBuf = t.outBuf ++ text.map .char

/-- The source's packed round-trip (95_test_vectors.md L1-5, corrected by 90_conflicts.md C2 and C3): such a text comes back
through the packed form when its septet count is 0 or no multiple of 8. -/
def Obligations.PackedRoundTrip : Prop :=
  ∀ (text : List CharVal) (s : State), s.cfg.wf = true →
    packIdle s = true → unpackIdle s = true → decIdle s = true →
    (∀ c ∈ text, c ≠ s.cfg.basicRead 0x1B#7
      ∧ ((s.cfg.basicFind c).isSome = true ∨ (s.cfg.extFind c).isSome = true)) →
    (text = [] ∨ (encodeText s.cfg text).length % 8 ≠ 0) →
    ∃ (os : List Octet) (t u : State),
      execAll (encPStr text) s = .next t ∧ t.outBuf = s.outBuf ++ os.map .oct
      ∧ execAll (updBytes os) t = .next u ∧ u.outBuf = t.outBuf ++ text.map .char

/-! ### Status, exception, reset -/

/-- 60_exceptions.md rule R201: an illegal word at the command port sets `STATUS.ILL`, is recorded in `ERRCMD` if it is the
first, and has no other effect; the block then takes the next command as usual. -/
def Obligations.IllegalCommandSetsStatusAndErrcmdOnly : Prop :=
  ∀ (s : State) (w : Word) (ws : List Word), s.cmdPort = w :: ws → s.hasRoom = true → legalWord w = false →
    ∃ t, step s = .next t
      ∧ t = { s with
          cmdPort := ws
          errcmd := if (sidebandValue .status s).getLsbD 0 then s.errcmd else w
          status := s.status ||| 1#32 }
      ∧ sidebandValue .status t = 1#32
      ∧ ∀ (v : Word) (vs : List Word) (i : Instr), ws = v :: vs → decode v = .ok i →
          step t = exec i { t with cmdPort := vs }

/-- 60_exceptions.md rule R206: `STATUS.ILL` and `ERRCMD` stay as set until `CLR` or reset, whatever the step does. -/
def Obligations.RecordedErrorStaysUntilClrOrReset : Prop :=
  ∀ s t : State, step s = .next t → statusIll s.status = true →
    (statusIll t.status = true ∧ t.errcmd = s.errcmd)
    ∨ (∃ ws, s.cmdPort = encode .clr :: ws ∧ s.hasRoom = true)
    ∨ (∃ as, s.hostActs = .assertReset :: as ∧ (s.cmdPort = [] ∨ s.hasRoom = false))

/-- 10_state.md rule R30: the bits of the `STATE` view, and that a sideband read, made between commands, returns the current
values and has no side effect (that the host acts when no word can be accepted is how the model orders them: log entry 6). -/
def Obligations.SidebandReadsShowTheRegisters : Prop :=
  (∀ s : State,
      let v := sidebandValue .state s
      v.extractLsb' 0 7 = s.pkCarry ∧ v.extractLsb' 7 1 = 0#1 ∧ v.extractLsb' 8 3 = s.pkFill
      ∧ v.extractLsb' 11 5 = 0#5 ∧ v.extractLsb' 16 7 = s.upAcc ∧ v.extractLsb' 23 1 = 0#1
      ∧ v.extractLsb' 24 3 = s.upShift ∧ v.getLsbD 27 = s.upPend
      ∧ v.getLsbD 28 = decide (s.decEsc = .escaped) ∧ v.extractLsb' 29 3 = 0#3)
  ∧ ∀ (s : State) (r : SidebandReg) (as : List HostAct), s.hostActs = .readSideband r :: as →
      (s.cmdPort = [] ∨ s.hasRoom = false) →
      step s = .next { s with hostActs := as, received := s.received ++ [.sideband r (sidebandValue r s)] }

/-- 10_state.md rule R28: what a read of `STATUS` shows: `ILL` in bit 0, and 0 in every other bit, in every state; `ILL` is 0
after reset, set by an illegal word, and left alone by every legal command but `CLR`, which clears it, and by every act of the
host but reset. -/
def Obligations.StatusReadsIllAndZeros : Prop :=
  (∀ s : State, (sidebandValue .status s).extractLsb' 1 31 = 0#31
      ∧ (sidebandValue .status s).getLsbD 0 = s.status.getLsbD 0)
  ∧ sidebandValue .status State.reset = 0#32
  ∧ (∀ (w : Word) (s : State), legalWord w = false →
      ∃ t, executeWord w s = .next t ∧ sidebandValue .status t = 1#32)
  ∧ (∀ (i : Instr) (s : State), ∃ t, exec i s = .next t
      ∧ sidebandValue .status t = if i = .clr then 0#32 else sidebandValue .status s)
  ∧ (∀ (a : HostAct) (s : State),
      sidebandValue .status (hostAct a s) = if a = .assertReset then 0#32 else sidebandValue .status s)

/-- 10_state.md rule R32: after reset every register is 0 (`NORMAL` for `DEC_ESC`). -/
def Obligations.ResetValuesAreZero : Prop :=
  State.reset.pkCarry = 0#7 ∧ State.reset.pkFill = 0#3 ∧ State.reset.upAcc = 0#7 ∧ State.reset.upShift = 0#3
    ∧ State.reset.upPend = false ∧ State.reset.decEsc = .normal
    ∧ State.reset.status = 0#32 ∧ State.reset.errcmd = 0#32

/-- 70_reset_and_hazards.md rule R220: the reset input, between commands, gives every register its reset value and empties the
output buffer, the tokens the host has not read being lost; the ROM is not affected (when the host acts: log entry 6). -/
def Obligations.ResetInputClearsRegistersAndOutput : Prop :=
  ∀ (s : State) (as : List HostAct), s.hostActs = .assertReset :: as → (s.cmdPort = [] ∨ s.hasRoom = false) →
    ∃ t, step s = .next t
      ∧ t.pkCarry = 0#7 ∧ t.pkFill = 0#3 ∧ t.upAcc = 0#7 ∧ t.upShift = 0#3 ∧ t.upPend = false ∧ t.decEsc = .normal
      ∧ t.status = 0#32 ∧ t.errcmd = 0#32 ∧ t.outBuf = [] ∧ t.received = s.received ∧ t.cfg = s.cfg

/-- 70_reset_and_hazards.md rule R226 (a rule the spec marks as derived): where the idle predicates hold. -/
def Obligations.IdleAfterResetClrAndEndCommands : Prop :=
  (packIdle State.reset = true ∧ unpackIdle State.reset = true ∧ decIdle State.reset = true)
  ∧ ∀ s : State,
      (∃ t, exec .clr s = .next t ∧ packIdle t = true ∧ unpackIdle t = true ∧ decIdle t = true)
      ∧ (∃ t, exec .pkf s = .next t ∧ packIdle t = true)
      ∧ (∃ t, exec .upe s = .next t ∧ unpackIdle t = true ∧ t.decEsc = s.decEsc)
      ∧ (∃ t, exec .dece s = .next t ∧ decIdle t = true)
      ∧ (∃ t, exec .upde s = .next t ∧ unpackIdle t = true ∧ decIdle t = true)

/-- 70_reset_and_hazards.md rule R225: the engines are independent. What a command emits and does depends on the registers of
the engines it names in the table of 30_encoding.md rule R73, and on the ROM where it reads it, and on nothing else, and it
writes no register of another engine: `PKS` and `PKF` PACK; `ENCP` PACK and the ROM; `UPO` and `UPE` UNPACK; `DEC` and `DECE`
DECODE and the ROM; `UPD` and `UPDE` UNPACK, DECODE and the ROM. -/
def Obligations.EnginesAreIndependent : Prop :=
  (∀ (i : Instr) (s s' : State), (i = .pkf ∨ ∃ b, i = .pks b) →
      s.pkCarry = s'.pkCarry → s.pkFill = s'.pkFill →
      ∃ ts carry fill,
        exec i s = .next { s with pkCarry := carry, pkFill := fill, outBuf := s.outBuf ++ ts }
        ∧ exec i s' = .next { s' with pkCarry := carry, pkFill := fill, outBuf := s'.outBuf ++ ts })
  ∧ (∀ (c : CharVal) (s s' : State),
      s.pkCarry = s'.pkCarry → s.pkFill = s'.pkFill → s.cfg = s'.cfg →
      ∃ ts carry fill,
        exec (.encp c) s = .next { s with pkCarry := carry, pkFill := fill, outBuf := s.outBuf ++ ts }
        ∧ exec (.encp c) s' = .next { s' with pkCarry := carry, pkFill := fill, outBuf := s'.outBuf ++ ts })
  ∧ (∀ (i : Instr) (s s' : State), (i = .upe ∨ ∃ b, i = .upo b) →
      s.upAcc = s'.upAcc → s.upShift = s'.upShift → s.upPend = s'.upPend →
      ∃ ts acc shift pend,
        exec i s = .next { s with upAcc := acc, upShift := shift, upPend := pend, outBuf := s.outBuf ++ ts }
        ∧ exec i s' = .next { s' with upAcc := acc, upShift := shift, upPend := pend, outBuf := s'.outBuf ++ ts })
  ∧ (∀ (i : Instr) (s s' : State), (i = .dece ∨ ∃ b, i = .dec b) →
      s.decEsc = s'.decEsc → s.cfg = s'.cfg →
      ∃ ts d,
        exec i s = .next { s with decEsc := d, outBuf := s.outBuf ++ ts }
        ∧ exec i s' = .next { s' with decEsc := d, outBuf := s'.outBuf ++ ts })
  ∧ (∀ (i : Instr) (s s' : State), (i = .upde ∨ ∃ b, i = .upd b) →
      s.upAcc = s'.upAcc → s.upShift = s'.upShift → s.upPend = s'.upPend → s.decEsc = s'.decEsc → s.cfg = s'.cfg →
      ∃ ts acc shift pend d,
        exec i s = .next { s with
          upAcc := acc, upShift := shift, upPend := pend, decEsc := d, outBuf := s.outBuf ++ ts }
        ∧ exec i s' = .next { s' with
          upAcc := acc, upShift := shift, upPend := pend, decEsc := d, outBuf := s'.outBuf ++ ts })

/-! ### The step -/

/-- A step runs the decoded command: with a legal word at the head of the command port and room for two tokens, the step is
exec of the command it names, the word taken off the port. -/
def Obligations.StepRunsTheDecodedCommand : Prop :=
  ∀ (s : State) (w : Word) (ws : List Word) (i : Instr), s.cmdPort = w :: ws →
    s.outBuf.length + 2 ≤ s.cfg.outDepth → decode w = .ok i → step s = exec i { s with cmdPort := ws }

/-- A word placed by `withFetchWord` is the one the very next step runs, from any state of a block whose output buffer holds
at least two tokens (the placing is the model's: log entry 11). -/
def Obligations.PlacedWordRunsNext : Prop :=
  ∀ (s : State) (nbits w : Nat) (i : Instr), 2 ≤ s.cfg.outDepth → decodeTableWord nbits w = some i →
    step (s.withFetchWord nbits w) = exec i (if s.hasRoom then s else s.drain)

/-- Without room for two tokens no command is accepted: the block waits and changes nothing, and the host, taking a token,
makes room (30_encoding.md rule R70, 70_reset_and_hazards.md rule R230; that the host's next act then comes first is the
model's: log entry 6). -/
def Obligations.NoRoomNoCommand : Prop :=
  ∀ (s : State) (w : Word) (ws : List Word), s.cmdPort = w :: ws → s.cfg.outDepth < s.outBuf.length + 2 →
    (s.hostActs = [] → step s = .next s)
    ∧ (∀ as t ts, s.hostActs = .readToken :: as → s.outBuf = t :: ts →
        step s = .next { s with hostActs := as, outBuf := ts, received := s.received ++ [.token t] })

/-- What the host does at the ports when no command is accepted, be the command port empty or its oldest word waiting for room:
a presented word goes behind those already there, a read takes the oldest token, and with nothing to do the block holds its
registers (that the words keep their order is 20_memory.md rule R57 and 30_encoding.md rule R70; the schedule is the model's:
log entries 6, 9, 10). -/
def Obligations.HostActsAtThePorts : Prop :=
  ∀ s : State, (s.cmdPort = [] ∨ s.hasRoom = false) →
    (s.hostActs = [] → step s = .next s)
    ∧ (∀ w as, s.hostActs = .present w :: as →
        step s = .next { s with hostActs := as, cmdPort := s.cmdPort ++ [w] })
    ∧ (∀ as, s.hostActs = .readToken :: as → s.outBuf = [] → step s = .next { s with hostActs := as })
    ∧ (∀ as t ts, s.hostActs = .readToken :: as → s.outBuf = t :: ts →
        step s = .next { s with hostActs := as, outBuf := ts, received := s.received ++ [.token t] })

/-- 20_memory.md rule R57: the output stream only grows at its end, by at most two tokens a step, so tokens come out in the
order of the commands; only reset loses tokens, those the host has not read. -/
def Obligations.TokensComeOutInOrder : Prop :=
  ∀ s t : State, step s = .next t →
    (∃ ts, ts.length ≤ 2 ∧ t.outputSoFar = s.outputSoFar ++ ts)
    ∨ (∃ as, s.hostActs = .assertReset :: as ∧ t.outputSoFar ++ s.outBuf = s.outputSoFar)

/-- The block never stops: from every state, every number of steps answers a next state (00_scope.md rule R10: every command
completes; 60_exceptions.md rule R201: an illegal command does not stop the block). -/
def Obligations.EveryRunGoesOn : Prop :=
  ∀ s : State, s.GoesOn

/-- The invariants of 10_state.md rules R23, R24, R28 and R29, which the spec marks as derived, hold after reset, with the
default parameters. -/
def Obligations.ResetMeetsTheInvariant : Prop :=
  State.reset.Inv

/-- Every step keeps the invariants, from every state that meets them, and every block that is built meets them. -/
def Obligations.EveryStepKeepsTheInvariant : Prop :=
  (∀ cfg s, State.build cfg = .next s → s.Inv)
  ∧ ∀ s t : State, s.Inv → step s = .next t → t.Inv

/-! ### The assembler -/

/-- 30_encoding.md rule R77: for each command, with each operand, the assembled word is `(operand << 8) | OP` and decodes to
the command with that operand; an operand out of range, missing or one too many is refused; each mnemonic of rule R73's table
names its `OP`, and a line that starts with it and a blank is that command's. -/
def Obligations.AssembledWordsDecode : Prop :=
  (∀ op, opcodeForm op = some .none →
      assembleCommand op none = .ok (op.setWidth 32) ∧ ∀ n, assembleCommand op (some n) = .error .badOperand)
  ∧ (∀ op n, opcodeForm op = some .char → assembleCommand op (some n) =
      if n < 2 ^ 24 then .ok (BitVec.ofNat 32 (n <<< 8 ||| op.toNat)) else .error .outOfRange)
  ∧ (∀ op n, opcodeForm op = some .byte → assembleCommand op (some n) =
      if n < 256 then .ok (BitVec.ofNat 32 (n <<< 8 ||| op.toNat)) else .error .outOfRange)
  ∧ (∀ op, opcodeForm op = some .char ∨ opcodeForm op = some .byte → assembleCommand op none = .error .badOperand)
  ∧ (∀ op operand w, assembleCommand op operand = .ok w →
      ∃ i, decode w = .ok i ∧ i.opcode = op ∧ i.data.toNat = operand.getD 0)
  ∧ (mnemonicTable.lookup ['N', 'O', 'P'] = some 0x0#4
    ∧ mnemonicTable.lookup ['C', 'L', 'R'] = some 0x1#4
    ∧ mnemonicTable.lookup ['E', 'N', 'C'] = some 0x2#4
    ∧ mnemonicTable.lookup ['E', 'N', 'C', 'P'] = some 0x3#4
    ∧ mnemonicTable.lookup ['P', 'K', 'S'] = some 0x4#4
    ∧ mnemonicTable.lookup ['P', 'K', 'F'] = some 0x5#4
    ∧ mnemonicTable.lookup ['U', 'P', 'O'] = some 0x6#4
    ∧ mnemonicTable.lookup ['U', 'P', 'E'] = some 0x7#4
    ∧ mnemonicTable.lookup ['D', 'E', 'C'] = some 0x8#4
    ∧ mnemonicTable.lookup ['D', 'E', 'C', 'E'] = some 0x9#4
    ∧ mnemonicTable.lookup ['U', 'P', 'D'] = some 0xA#4
    ∧ mnemonicTable.lookup ['U', 'P', 'D', 'E'] = some 0xB#4)
  ∧ (∀ e ∈ mnemonicTable, ∀ cs, assembleLine (e.1 ++ ' ' :: cs) = assembleOperands e.2 (' ' :: cs))

/-- 30_encoding.md rule R78: the words of a pseudo-instruction decode to the commands of its call, in order; each name is that
of its call, and a line that starts with it and a blank is that pseudo-instruction's. -/
def Obligations.PseudoInstructionsAssembleToCalls : Prop :=
  (∀ text : List CharVal, ∃ ws, assembleEach 0x2#4 none (text.map BitVec.toNat) = .ok ws
      ∧ ws = (encStr text).map encode)
  ∧ (∀ text : List CharVal, ∃ ws, assembleEach 0x3#4 (some 0x5#4) (text.map BitVec.toNat) = .ok ws
      ∧ ws = (encPStr text).map encode)
  ∧ (∀ bs : List Octet,
      assembleEach 0x8#4 (some 0x9#4) (bs.map BitVec.toNat) = .ok ((decBytes bs).map encode)
      ∧ assembleEach 0xA#4 (some 0xB#4) (bs.map BitVec.toNat) = .ok ((updBytes bs).map encode)
      ∧ assembleEach 0x4#4 (some 0x5#4) (bs.map BitVec.toNat) = .ok ((packSept bs).map encode)
      ∧ assembleEach 0x6#4 (some 0x7#4) (bs.map BitVec.toNat) = .ok ((unpackOct bs).map encode))
  ∧ pseudoTable.map Prod.snd = [(0x2#4, none), (0x3#4, some 0x5#4), (0x8#4, some 0x9#4), (0xA#4, some 0xB#4),
      (0x4#4, some 0x5#4), (0x6#4, some 0x7#4)]
  ∧ (pseudoTable.lookup ['E', 'N', 'C', 'S', 'T', 'R'] = some (0x2#4, none)
    ∧ pseudoTable.lookup ['E', 'N', 'C', 'P', 'S', 'T', 'R'] = some (0x3#4, some 0x5#4)
    ∧ pseudoTable.lookup ['D', 'E', 'C', 'B', 'Y', 'T', 'E', 'S'] = some (0x8#4, some 0x9#4)
    ∧ pseudoTable.lookup ['U', 'P', 'D', 'B', 'Y', 'T', 'E', 'S'] = some (0xA#4, some 0xB#4)
    ∧ pseudoTable.lookup ['P', 'A', 'C', 'K', 'S', 'E', 'P', 'T'] = some (0x4#4, some 0x5#4)
    ∧ pseudoTable.lookup ['U', 'N', 'P', 'A', 'C', 'K', 'O', 'C', 'T'] = some (0x6#4, some 0x7#4))
  ∧ ∀ e ∈ pseudoTable, ∀ cs, assembleLine (e.1 ++ ' ' :: cs) = assemblePseudo e.2.1 e.2.2 (' ' :: cs)
end

