-- ==== Sys2Proof/Laws/Encoding.lean ====
section
/-! SUPPORT. The fields of a command word that was put together from an `OP` and a `DATA`, and what the decoder does with such
a word. -/

namespace Sys2Proof.Laws

/-- Two words are equal when their fields are. -/
theorem word_eq_of_fields {w v : Word} (ho : opField w = opField v) (hr : rsvField w = rsvField v)
    (hd : dataField w = dataField v) : w = v := by
  apply BitVec.eq_of_getLsbD_eq
  intro i hi
  have o := congrArg (fun x => BitVec.getLsbD x i) ho
  have r := congrArg (fun x => BitVec.getLsbD x (i - 4)) hr
  have d := congrArg (fun x => BitVec.getLsbD x (i - 8)) hd
  simp only [opField, rsvField, dataField, BitVec.getLsbD_extractLsb'] at o r d
  by_cases h4 : i < 4
  · simpa [h4] using o
  · by_cases h8 : i < 8
    · have : i - 4 < 4 := by omega
      have e : 4 + (i - 4) = i := by omega
      simpa [this, e] using r
    · have : i - 8 < 24 := by omega
      have e : 8 + (i - 8) = i := by omega
      simpa [this, e] using d

theorem opField_commandWord (op : BitVec 4) (d : BitVec 24) : opField (commandWord op d) = op := by
  apply BitVec.eq_of_getLsbD_eq
  intro i hi
  have h1 : i < 32 := by omega
  have h2 : i < 8 := by omega
  simp [opField, commandWord, hi, h1, h2]

theorem rsvField_commandWord (op : BitVec 4) (d : BitVec 24) : rsvField (commandWord op d) = 0#4 := by
  apply BitVec.eq_of_getLsbD_eq
  intro i hi
  have h2 : 4 + i < 8 := by omega
  simp [rsvField, commandWord, h2]

theorem dataField_commandWord (op : BitVec 4) (d : BitVec 24) : dataField (commandWord op d) = d := by
  apply BitVec.eq_of_getLsbD_eq
  intro i hi
  have h1 : 8 + i < 32 := by omega
  have h2 : op.getLsbD (8 + i) = false := BitVec.getLsbD_of_ge _ _ (by omega)
  simp [dataField, commandWord, hi, h1, h2]

/-- `DATA8` and `DATAHI` are the low byte and the high bits of `DATA`. -/
theorem data8Field_eq (w : Word) : data8Field w = (dataField w).setWidth 8 := by
  apply BitVec.eq_of_getLsbD_eq
  intro i hi
  have h1 : i < 24 := by omega
  simp [data8Field, dataField, hi, h1]

theorem dataHiField_eq (w : Word) : dataHiField w = (dataField w).extractLsb' 8 16 := by
  apply BitVec.eq_of_getLsbD_eq
  intro i hi
  have h1 : 8 + i < 24 := by omega
  have h2 : 16 + i = 8 + (8 + i) := by omega
  simp [dataHiField, dataField, hi, h1, h2]

theorem byteOperand_commandWord (op : BitVec 4) (b : Octet) :
    byteOperand (commandWord op (b.setWidth 24)) = b := by
  simp [byteOperand, data8Field_eq, dataField_commandWord]

theorem dataHiField_commandWord (op : BitVec 4) (b : Octet) :
    dataHiField (commandWord op (b.setWidth 24)) = 0#16 := by
  rw [dataHiField_eq, dataField_commandWord]
  apply BitVec.eq_of_getLsbD_eq
  intro i hi
  simp [hi]

/-- A word whose `DATAHI` is 0 has the byte operand, zero-extended, as its `DATA`. -/
theorem dataField_of_dataHi_zero {w : Word} (h : dataHiField w = 0#16) :
    dataField w = (byteOperand w).setWidth 24 := by
  apply BitVec.eq_of_getLsbD_eq
  intro i hi
  simp only [byteOperand, data8Field_eq]
  by_cases h8 : i < 8
  · simp [hi, h8]
  · have e := congrArg (fun x => BitVec.getLsbD x (i - 8)) h
    have h1 : i - 8 < 16 := by omega
    have h2 : 8 + (i - 8) = i := by omega
    simp [dataHiField_eq, h1, h2] at e
    simp [h8, e]

/-- A word is the word put together from its `OP` and its `DATA` when its `RSV` is 0. -/
theorem eq_commandWord {w : Word} (h : rsvField w = 0#4) : w = commandWord (opField w) (dataField w) :=
  word_eq_of_fields (opField_commandWord _ _).symm (h.trans (rsvField_commandWord _ _).symm)
    (dataField_commandWord _ _).symm

/-- Every `OP` value is one of sixteen. -/
theorem op_cases (op : BitVec 4) : op = 0x0#4 ∨ op = 0x1#4 ∨ op = 0x2#4 ∨ op = 0x3#4 ∨ op = 0x4#4 ∨ op = 0x5#4
    ∨ op = 0x6#4 ∨ op = 0x7#4 ∨ op = 0x8#4 ∨ op = 0x9#4 ∨ op = 0xA#4 ∨ op = 0xB#4 ∨ op = 0xC#4 ∨ op = 0xD#4
    ∨ op = 0xE#4 ∨ op = 0xF#4 := by
  revert op; decide

/-- The decoder refuses a word with `RSV` not 0. -/
theorem decode_of_rsv {w : Word} (h : rsvField w ≠ 0#4) : decode w = .error .rsvNonzero := by
  simp [decode, h]

/-- With `RSV` 0 the decoder goes by `OP`. -/
theorem decode_of_rsv_zero {w : Word} (h : rsvField w = 0#4) : decode w = decodeOp w := by
  simp [decode, h]

end Sys2Proof.Laws
end

