-- ==== Sys2Proof/Laws/Form.lean ====
section
/-! SUPPORT. The bit string of a sequence (spec 20_memory.md rule R51), one element at a time. -/

namespace Sys2Proof.Machine

theorem bitString_nil {w : Nat} : bitString ([] : List (BitVec w)) = 0 := rfl

/-- The sum with every index moved up by one is the sum shifted by one element's width. -/
theorem sum_zipIdx_succ {w : Nat} (xs : List (BitVec w)) (k : Nat) :
    ((xs.zipIdx (k + 1)).map fun p => p.1.toNat <<< (w * p.2)).sum
      = 2 ^ w * ((xs.zipIdx k).map fun p => p.1.toNat <<< (w * p.2)).sum := by
  induction xs generalizing k with
  | nil => simp
  | cons x xs ih =>
    simp only [List.zipIdx_cons, List.map_cons, List.sum_cons]
    rw [ih (k + 1), Nat.mul_add, Nat.shiftLeft_eq, Nat.shiftLeft_eq, Nat.mul_succ, Nat.pow_add]
    ring

/-- The first element is the low end of the bit string. -/
theorem bitString_cons {w : Nat} (x : BitVec w) (xs : List (BitVec w)) :
    bitString (x :: xs) = x.toNat + 2 ^ w * bitString xs := by
  have h := sum_zipIdx_succ xs 0
  simp only [bitString, List.zipIdx_cons, List.map_cons, List.sum_cons]
  rw [h]
  simp

/-- A bit string has no bit above its elements. -/
theorem bitString_lt {w : Nat} (xs : List (BitVec w)) : bitString xs < 2 ^ (w * xs.length) := by
  induction xs with
  | nil => simp [bitString_nil]
  | cons x xs ih =>
    have hx := x.isLt
    rw [bitString_cons, List.length_cons, Nat.mul_succ, Nat.add_comm (w * xs.length), Nat.pow_add]
    have hp : 2 ^ w * (bitString xs + 1) ≤ 2 ^ w * 2 ^ (w * xs.length) := Nat.mul_le_mul_left _ ih
    rw [Nat.mul_add] at hp
    omega

/-- A later sequence stands above an earlier one. -/
theorem bitString_append {w : Nat} (xs ys : List (BitVec w)) :
    bitString (xs ++ ys) = bitString xs + 2 ^ (w * xs.length) * bitString ys := by
  induction xs with
  | nil => simp [bitString_nil]
  | cons x xs ih =>
    rw [List.cons_append, bitString_cons, ih, bitString_cons, List.length_cons, Nat.mul_succ,
      Nat.add_comm (w * xs.length), Nat.pow_add]
    ring

end Sys2Proof.Machine
end

