-- ==== Sys2Proof/Laws/State.lean ====
section
/-! SUPPORT. One lemma per field per update of the state, each true by definition: no proof unfolds a record update. -/

namespace Sys2Proof.Machine

variable (s : State)

@[simp] theorem State.emit_pkCarry (ts : List Token) : (s.emit ts).pkCarry = s.pkCarry := rfl
@[simp] theorem State.emit_pkFill (ts : List Token) : (s.emit ts).pkFill = s.pkFill := rfl
@[simp] theorem State.emit_upAcc (ts : List Token) : (s.emit ts).upAcc = s.upAcc := rfl
@[simp] theorem State.emit_upShift (ts : List Token) : (s.emit ts).upShift = s.upShift := rfl
@[simp] theorem State.emit_upPend (ts : List Token) : (s.emit ts).upPend = s.upPend := rfl
@[simp] theorem State.emit_decEsc (ts : List Token) : (s.emit ts).decEsc = s.decEsc := rfl
@[simp] theorem State.emit_status (ts : List Token) : (s.emit ts).status = s.status := rfl
@[simp] theorem State.emit_errcmd (ts : List Token) : (s.emit ts).errcmd = s.errcmd := rfl
@[simp] theorem State.emit_cmdPort (ts : List Token) : (s.emit ts).cmdPort = s.cmdPort := rfl
@[simp] theorem State.emit_outBuf (ts : List Token) : (s.emit ts).outBuf = s.outBuf ++ ts := rfl
@[simp] theorem State.emit_hostActs (ts : List Token) : (s.emit ts).hostActs = s.hostActs := rfl
@[simp] theorem State.emit_received (ts : List Token) : (s.emit ts).received = s.received := rfl
@[simp] theorem State.emit_cfg (ts : List Token) : (s.emit ts).cfg = s.cfg := rfl

@[simp] theorem State.setPack_pkCarry (c : BitVec 7) (f : BitVec 3) : (s.setPack c f).pkCarry = c := rfl
@[simp] theorem State.setPack_pkFill (c : BitVec 7) (f : BitVec 3) : (s.setPack c f).pkFill = f := rfl
@[simp] theorem State.setPack_upAcc (c : BitVec 7) (f : BitVec 3) : (s.setPack c f).upAcc = s.upAcc := rfl
@[simp] theorem State.setPack_upShift (c : BitVec 7) (f : BitVec 3) : (s.setPack c f).upShift = s.upShift := rfl
@[simp] theorem State.setPack_upPend (c : BitVec 7) (f : BitVec 3) : (s.setPack c f).upPend = s.upPend := rfl
@[simp] theorem State.setPack_decEsc (c : BitVec 7) (f : BitVec 3) : (s.setPack c f).decEsc = s.decEsc := rfl
@[simp] theorem State.setPack_status (c : BitVec 7) (f : BitVec 3) : (s.setPack c f).status = s.status := rfl
@[simp] theorem State.setPack_errcmd (c : BitVec 7) (f : BitVec 3) : (s.setPack c f).errcmd = s.errcmd := rfl
@[simp] theorem State.setPack_cmdPort (c : BitVec 7) (f : BitVec 3) : (s.setPack c f).cmdPort = s.cmdPort := rfl
@[simp] theorem State.setPack_outBuf (c : BitVec 7) (f : BitVec 3) : (s.setPack c f).outBuf = s.outBuf := rfl
@[simp] theorem State.setPack_hostActs (c : BitVec 7) (f : BitVec 3) : (s.setPack c f).hostActs = s.hostActs := rfl
@[simp] theorem State.setPack_received (c : BitVec 7) (f : BitVec 3) : (s.setPack c f).received = s.received := rfl
@[simp] theorem State.setPack_cfg (c : BitVec 7) (f : BitVec 3) : (s.setPack c f).cfg = s.cfg := rfl

@[simp] theorem State.setUnpack_pkCarry (a : BitVec 7) (k : BitVec 3) (p : Bool) : (s.setUnpack a k p).pkCarry = s.pkCarry := rfl
@[simp] theorem State.setUnpack_pkFill (a : BitVec 7) (k : BitVec 3) (p : Bool) : (s.setUnpack a k p).pkFill = s.pkFill := rfl
@[simp] theorem State.setUnpack_upAcc (a : BitVec 7) (k : BitVec 3) (p : Bool) : (s.setUnpack a k p).upAcc = a := rfl
@[simp] theorem State.setUnpack_upShift (a : BitVec 7) (k : BitVec 3) (p : Bool) : (s.setUnpack a k p).upShift = k := rfl
@[simp] theorem State.setUnpack_upPend (a : BitVec 7) (k : BitVec 3) (p : Bool) : (s.setUnpack a k p).upPend = p := rfl
@[simp] theorem State.setUnpack_decEsc (a : BitVec 7) (k : BitVec 3) (p : Bool) : (s.setUnpack a k p).decEsc = s.decEsc := rfl
@[simp] theorem State.setUnpack_status (a : BitVec 7) (k : BitVec 3) (p : Bool) : (s.setUnpack a k p).status = s.status := rfl
@[simp] theorem State.setUnpack_errcmd (a : BitVec 7) (k : BitVec 3) (p : Bool) : (s.setUnpack a k p).errcmd = s.errcmd := rfl
@[simp] theorem State.setUnpack_cmdPort (a : BitVec 7) (k : BitVec 3) (p : Bool) : (s.setUnpack a k p).cmdPort = s.cmdPort := rfl
@[simp] theorem State.setUnpack_outBuf (a : BitVec 7) (k : BitVec 3) (p : Bool) : (s.setUnpack a k p).outBuf = s.outBuf := rfl
@[simp] theorem State.setUnpack_hostActs (a : BitVec 7) (k : BitVec 3) (p : Bool) : (s.setUnpack a k p).hostActs = s.hostActs := rfl
@[simp] theorem State.setUnpack_received (a : BitVec 7) (k : BitVec 3) (p : Bool) : (s.setUnpack a k p).received = s.received := rfl
@[simp] theorem State.setUnpack_cfg (a : BitVec 7) (k : BitVec 3) (p : Bool) : (s.setUnpack a k p).cfg = s.cfg := rfl

@[simp] theorem State.setDec_pkCarry (d : DecState) : (s.setDec d).pkCarry = s.pkCarry := rfl
@[simp] theorem State.setDec_pkFill (d : DecState) : (s.setDec d).pkFill = s.pkFill := rfl
@[simp] theorem State.setDec_upAcc (d : DecState) : (s.setDec d).upAcc = s.upAcc := rfl
@[simp] theorem State.setDec_upShift (d : DecState) : (s.setDec d).upShift = s.upShift := rfl
@[simp] theorem State.setDec_upPend (d : DecState) : (s.setDec d).upPend = s.upPend := rfl
@[simp] theorem State.setDec_decEsc (d : DecState) : (s.setDec d).decEsc = d := rfl
@[simp] theorem State.setDec_status (d : DecState) : (s.setDec d).status = s.status := rfl
@[simp] theorem State.setDec_errcmd (d : DecState) : (s.setDec d).errcmd = s.errcmd := rfl
@[simp] theorem State.setDec_cmdPort (d : DecState) : (s.setDec d).cmdPort = s.cmdPort := rfl
@[simp] theorem State.setDec_outBuf (d : DecState) : (s.setDec d).outBuf = s.outBuf := rfl
@[simp] theorem State.setDec_hostActs (d : DecState) : (s.setDec d).hostActs = s.hostActs := rfl
@[simp] theorem State.setDec_received (d : DecState) : (s.setDec d).received = s.received := rfl
@[simp] theorem State.setDec_cfg (d : DecState) : (s.setDec d).cfg = s.cfg := rfl

@[simp] theorem State.setErr_pkCarry (x e : Word) : (s.setErr x e).pkCarry = s.pkCarry := rfl
@[simp] theorem State.setErr_pkFill (x e : Word) : (s.setErr x e).pkFill = s.pkFill := rfl
@[simp] theorem State.setErr_upAcc (x e : Word) : (s.setErr x e).upAcc = s.upAcc := rfl
@[simp] theorem State.setErr_upShift (x e : Word) : (s.setErr x e).upShift = s.upShift := rfl
@[simp] theorem State.setErr_upPend (x e : Word) : (s.setErr x e).upPend = s.upPend := rfl
@[simp] theorem State.setErr_decEsc (x e : Word) : (s.setErr x e).decEsc = s.decEsc := rfl
@[simp] theorem State.setErr_status (x e : Word) : (s.setErr x e).status = x := rfl
@[simp] theorem State.setErr_errcmd (x e : Word) : (s.setErr x e).errcmd = e := rfl
@[simp] theorem State.setErr_cmdPort (x e : Word) : (s.setErr x e).cmdPort = s.cmdPort := rfl
@[simp] theorem State.setErr_outBuf (x e : Word) : (s.setErr x e).outBuf = s.outBuf := rfl
@[simp] theorem State.setErr_hostActs (x e : Word) : (s.setErr x e).hostActs = s.hostActs := rfl
@[simp] theorem State.setErr_received (x e : Word) : (s.setErr x e).received = s.received := rfl
@[simp] theorem State.setErr_cfg (x e : Word) : (s.setErr x e).cfg = s.cfg := rfl

@[simp] theorem State.setCmdPort_pkCarry (ws : List Word) : (s.setCmdPort ws).pkCarry = s.pkCarry := rfl
@[simp] theorem State.setCmdPort_pkFill (ws : List Word) : (s.setCmdPort ws).pkFill = s.pkFill := rfl
@[simp] theorem State.setCmdPort_upAcc (ws : List Word) : (s.setCmdPort ws).upAcc = s.upAcc := rfl
@[simp] theorem State.setCmdPort_upShift (ws : List Word) : (s.setCmdPort ws).upShift = s.upShift := rfl
@[simp] theorem State.setCmdPort_upPend (ws : List Word) : (s.setCmdPort ws).upPend = s.upPend := rfl
@[simp] theorem State.setCmdPort_decEsc (ws : List Word) : (s.setCmdPort ws).decEsc = s.decEsc := rfl
@[simp] theorem State.setCmdPort_status (ws : List Word) : (s.setCmdPort ws).status = s.status := rfl
@[simp] theorem State.setCmdPort_errcmd (ws : List Word) : (s.setCmdPort ws).errcmd = s.errcmd := rfl
@[simp] theorem State.setCmdPort_cmdPort (ws : List Word) : (s.setCmdPort ws).cmdPort = ws := rfl
@[simp] theorem State.setCmdPort_outBuf (ws : List Word) : (s.setCmdPort ws).outBuf = s.outBuf := rfl
@[simp] theorem State.setCmdPort_hostActs (ws : List Word) : (s.setCmdPort ws).hostActs = s.hostActs := rfl
@[simp] theorem State.setCmdPort_received (ws : List Word) : (s.setCmdPort ws).received = s.received := rfl
@[simp] theorem State.setCmdPort_cfg (ws : List Word) : (s.setCmdPort ws).cfg = s.cfg := rfl

@[simp] theorem State.setHostActs_pkCarry (as : List HostAct) : (s.setHostActs as).pkCarry = s.pkCarry := rfl
@[simp] theorem State.setHostActs_pkFill (as : List HostAct) : (s.setHostActs as).pkFill = s.pkFill := rfl
@[simp] theorem State.setHostActs_upAcc (as : List HostAct) : (s.setHostActs as).upAcc = s.upAcc := rfl
@[simp] theorem State.setHostActs_upShift (as : List HostAct) : (s.setHostActs as).upShift = s.upShift := rfl
@[simp] theorem State.setHostActs_upPend (as : List HostAct) : (s.setHostActs as).upPend = s.upPend := rfl
@[simp] theorem State.setHostActs_decEsc (as : List HostAct) : (s.setHostActs as).decEsc = s.decEsc := rfl
@[simp] theorem State.setHostActs_status (as : List HostAct) : (s.setHostActs as).status = s.status := rfl
@[simp] theorem State.setHostActs_errcmd (as : List HostAct) : (s.setHostActs as).errcmd = s.errcmd := rfl
@[simp] theorem State.setHostActs_cmdPort (as : List HostAct) : (s.setHostActs as).cmdPort = s.cmdPort := rfl
@[simp] theorem State.setHostActs_outBuf (as : List HostAct) : (s.setHostActs as).outBuf = s.outBuf := rfl
@[simp] theorem State.setHostActs_hostActs (as : List HostAct) : (s.setHostActs as).hostActs = as := rfl
@[simp] theorem State.setHostActs_received (as : List HostAct) : (s.setHostActs as).received = s.received := rfl
@[simp] theorem State.setHostActs_cfg (as : List HostAct) : (s.setHostActs as).cfg = s.cfg := rfl

@[simp] theorem State.deliver_pkCarry (ds : List HostData) : (s.deliver ds).pkCarry = s.pkCarry := rfl
@[simp] theorem State.deliver_pkFill (ds : List HostData) : (s.deliver ds).pkFill = s.pkFill := rfl
@[simp] theorem State.deliver_upAcc (ds : List HostData) : (s.deliver ds).upAcc = s.upAcc := rfl
@[simp] theorem State.deliver_upShift (ds : List HostData) : (s.deliver ds).upShift = s.upShift := rfl
@[simp] theorem State.deliver_upPend (ds : List HostData) : (s.deliver ds).upPend = s.upPend := rfl
@[simp] theorem State.deliver_decEsc (ds : List HostData) : (s.deliver ds).decEsc = s.decEsc := rfl
@[simp] theorem State.deliver_status (ds : List HostData) : (s.deliver ds).status = s.status := rfl
@[simp] theorem State.deliver_errcmd (ds : List HostData) : (s.deliver ds).errcmd = s.errcmd := rfl
@[simp] theorem State.deliver_cmdPort (ds : List HostData) : (s.deliver ds).cmdPort = s.cmdPort := rfl
@[simp] theorem State.deliver_outBuf (ds : List HostData) : (s.deliver ds).outBuf = s.outBuf := rfl
@[simp] theorem State.deliver_hostActs (ds : List HostData) : (s.deliver ds).hostActs = s.hostActs := rfl
@[simp] theorem State.deliver_received (ds : List HostData) : (s.deliver ds).received = s.received ++ ds := rfl
@[simp] theorem State.deliver_cfg (ds : List HostData) : (s.deliver ds).cfg = s.cfg := rfl

@[simp] theorem State.setOutBuf_pkCarry (ts : List Token) : (s.setOutBuf ts).pkCarry = s.pkCarry := rfl
@[simp] theorem State.setOutBuf_pkFill (ts : List Token) : (s.setOutBuf ts).pkFill = s.pkFill := rfl
@[simp] theorem State.setOutBuf_upAcc (ts : List Token) : (s.setOutBuf ts).upAcc = s.upAcc := rfl
@[simp] theorem State.setOutBuf_upShift (ts : List Token) : (s.setOutBuf ts).upShift = s.upShift := rfl
@[simp] theorem State.setOutBuf_upPend (ts : List Token) : (s.setOutBuf ts).upPend = s.upPend := rfl
@[simp] theorem State.setOutBuf_decEsc (ts : List Token) : (s.setOutBuf ts).decEsc = s.decEsc := rfl
@[simp] theorem State.setOutBuf_status (ts : List Token) : (s.setOutBuf ts).status = s.status := rfl
@[simp] theorem State.setOutBuf_errcmd (ts : List Token) : (s.setOutBuf ts).errcmd = s.errcmd := rfl
@[simp] theorem State.setOutBuf_cmdPort (ts : List Token) : (s.setOutBuf ts).cmdPort = s.cmdPort := rfl
@[simp] theorem State.setOutBuf_outBuf (ts : List Token) : (s.setOutBuf ts).outBuf = ts := rfl
@[simp] theorem State.setOutBuf_hostActs (ts : List Token) : (s.setOutBuf ts).hostActs = s.hostActs := rfl
@[simp] theorem State.setOutBuf_received (ts : List Token) : (s.setOutBuf ts).received = s.received := rfl
@[simp] theorem State.setOutBuf_cfg (ts : List Token) : (s.setOutBuf ts).cfg = s.cfg := rfl

end Sys2Proof.Machine
end

