-- ==== Sys2Proof/Laws/Ops.lean ====
section
/-! SUPPORT. What each shared operation can do, said once: later proofs cite these lemmas instead of unfolding the
operations. -/

namespace Sys2Proof.Machine

/-! ### The bodies of the engines -/

/-- `EncSeq` by its three cases (spec 40_alphabet.md rule R101). -/
theorem encSeq_cases (cfg : Config) (c : CharVal) :
    (∃ i, cfg.basicFind c = some i ∧ encSeq cfg c = [i])
    ∨ (∃ j, cfg.basicFind c = none ∧ cfg.extFind c = some j ∧ encSeq cfg c = [escSeptet, j])
    ∨ (cfg.basicFind c = none ∧ cfg.extFind c = none ∧ encSeq cfg c = [spSeptet]) := by
  unfold encSeq
  cases hb : cfg.basicFind c with
  | some i => exact .inl ⟨i, rfl, rfl⟩
  | none =>
    cases he : cfg.extFind c with
    | some j => exact .inr (.inl ⟨j, rfl, rfl, rfl⟩)
    | none => exact .inr (.inr ⟨rfl, rfl, rfl⟩)

theorem encSeq_length (cfg : Config) (c : CharVal) :
    (encSeq cfg c).length = 1 ∨ (encSeq cfg c).length = 2 := by
  rcases encSeq_cases cfg c with ⟨i, _, h⟩ | ⟨j, _, _, h⟩ | ⟨_, _, h⟩ <;> simp [h]

/-- `PackBody` writes the PACK registers alone. -/
theorem packBody_frame (b : Octet) (s : State) :
    (packBody b s).2 = s.setPack (packBody b s).2.pkCarry (packBody b s).2.pkFill := by
  unfold packBody
  split <;> rfl

/-- `PackBody` by its two cases. -/
theorem packBody_empty {b : Octet} {s : State} (h : s.pkFill = 0#3) :
    packBody b s = ([], s.setPack (septetOf b) 7#3) := by
  simp [packBody, h, nextFill]

theorem packBody_filled {b : Octet} {s : State} (h : s.pkFill ≠ 0#3) :
    packBody b s = ([packOctet s.pkCarry (septetOf b) s.pkFill],
      s.setPack (packRest (septetOf b) s.pkFill) (nextFill s.pkFill)) := by
  simp [packBody, h]

theorem packBody_length (b : Octet) (s : State) :
    (packBody b s).1.length = if s.pkFill = 0#3 then 0 else 1 := by
  unfold packBody
  split <;> rfl

/-- `PackBody` sees the PACK registers alone. -/
theorem packBody_congr {b : Octet} {s s' : State} (hc : s.pkCarry = s'.pkCarry) (hf : s.pkFill = s'.pkFill) :
    (packBody b s).1 = (packBody b s').1
    ∧ (packBody b s).2.pkCarry = (packBody b s').2.pkCarry ∧ (packBody b s).2.pkFill = (packBody b s').2.pkFill := by
  unfold packBody
  rw [hc, hf]
  split <;> simp

theorem packAll_frame (vs : List Septet) (s : State) :
    (packAll vs s).2 = s.setPack (packAll vs s).2.pkCarry (packAll vs s).2.pkFill := by
  induction vs generalizing s with
  | nil => rfl
  | cons v vs ih =>
    simp only [packAll]
    rw [ih, packBody_frame]
    rfl

theorem packAll_length (vs : List Septet) (s : State) : (packAll vs s).1.length ≤ vs.length := by
  induction vs generalizing s with
  | nil => simp [packAll]
  | cons v vs ih =>
    have h := ih (packBody (byteOfSeptet v) s).2
    have hb := packBody_length (byteOfSeptet v) s
    simp only [packAll, List.length_append, List.length_cons]
    split at hb <;> omega

theorem packAll_congr {vs : List Septet} {s s' : State} (hc : s.pkCarry = s'.pkCarry) (hf : s.pkFill = s'.pkFill) :
    (packAll vs s).1 = (packAll vs s').1
    ∧ (packAll vs s).2.pkCarry = (packAll vs s').2.pkCarry ∧ (packAll vs s).2.pkFill = (packAll vs s').2.pkFill := by
  induction vs generalizing s s' with
  | nil => exact ⟨rfl, hc, hf⟩
  | cons v vs ih =>
    obtain ⟨h1, h2, h3⟩ := packBody_congr (b := byteOfSeptet v) hc hf
    obtain ⟨k1, k2, k3⟩ := ih h2 h3
    exact ⟨by simp only [packAll, h1, k1], k2, k3⟩

/-- `UnpackBody` writes the UNPACK registers alone. -/
theorem unpackBody_frame (b : Octet) (s : State) :
    (unpackBody b s).2
      = s.setUnpack (unpackBody b s).2.upAcc (unpackBody b s).2.upShift (unpackBody b s).2.upPend := by
  unfold unpackBody unpackOne releaseHeld
  split <;> rfl

/-- `UnpackBody` with nothing held: one septet. -/
theorem unpackBody_plain {b : Octet} {s : State} (h : s.upPend = false) :
    unpackBody b s = ([(unpackWindow s.upAcc b s.upShift).setWidth 7],
      s.setUnpack ((unpackWindow s.upAcc b s.upShift >>> 7).setWidth 7) (nextShift s.upShift)
        (decide (nextShift s.upShift = 0#3))) := by
  simp only [unpackBody, releaseHeld, unpackOne, h]
  by_cases hs : nextShift s.upShift = 0#3 <;> simp [hs, h]

/-- `UnpackBody` with a septet held: it comes first, and the accumulator starts again from 0. -/
theorem unpackBody_held {b : Octet} {s : State} (h : s.upPend = true) :
    unpackBody b s = ([s.upAcc, (unpackWindow 0#7 b s.upShift).setWidth 7],
      s.setUnpack ((unpackWindow 0#7 b s.upShift >>> 7).setWidth 7) (nextShift s.upShift)
        (decide (nextShift s.upShift = 0#3))) := by
  simp only [unpackBody, releaseHeld, unpackOne, h]
  by_cases hs : nextShift s.upShift = 0#3 <;> simp [hs, State.setUnpack]

theorem unpackBody_length (b : Octet) (s : State) :
    (unpackBody b s).1.length = if s.upPend then 2 else 1 := by
  cases h : s.upPend
  · rw [unpackBody_plain h]; rfl
  · rw [unpackBody_held h]; rfl

/-- `UnpackBody` sees the UNPACK registers alone. -/
theorem unpackBody_congr {b : Octet} {s s' : State} (ha : s.upAcc = s'.upAcc) (hs : s.upShift = s'.upShift)
    (hp : s.upPend = s'.upPend) :
    (unpackBody b s).1 = (unpackBody b s').1 ∧ (unpackBody b s).2.upAcc = (unpackBody b s').2.upAcc
    ∧ (unpackBody b s).2.upShift = (unpackBody b s').2.upShift
    ∧ (unpackBody b s).2.upPend = (unpackBody b s').2.upPend := by
  cases h : s.upPend
  · rw [unpackBody_plain h, unpackBody_plain (hp ▸ h), ha, hs]; simp
  · rw [unpackBody_held h, unpackBody_held (hp ▸ h), ha, hs]; simp

/-- `DecBody` writes the DECODE register alone. -/
theorem decBody_frame (b : Octet) (s : State) : (decBody b s).2 = s.setDec (decBody b s).2.decEsc := by
  unfold decBody
  split
  · rfl
  · split
    · rfl
    · split <;> rfl

theorem decBody_escaped {b : Octet} {s : State} (h : s.decEsc = .escaped) :
    decBody b s = ([(s.cfg.extRead b.toNat).getD spChar], s.setDec .normal) := by
  simp [decBody, h]

theorem decBody_normal {b : Octet} {s : State} (h : s.decEsc = .normal) :
    decBody b s = if b = byteOfSeptet escSeptet then ([], s.setDec .escaped)
      else if b.toNat < 0x80 then ([s.cfg.basicRead (septetOf b)], s) else ([qmChar], s) := by
  simp [decBody, h]

theorem decBody_length (b : Octet) (s : State) : (decBody b s).1.length ≤ 1 := by
  unfold decBody
  split
  · simp
  · split
    · simp
    · split <;> simp

/-- `DecBody` sees the DECODE register and the ROM alone. -/
theorem decBody_congr {b : Octet} {s s' : State} (hd : s.decEsc = s'.decEsc) (hc : s.cfg = s'.cfg) :
    (decBody b s).1 = (decBody b s').1 ∧ (decBody b s).2.decEsc = (decBody b s').2.decEsc := by
  cases h : s.decEsc
  · rw [decBody_normal h, decBody_normal (hd ▸ h), hc]
    split
    · simp
    · split <;> simp [h, ← hd]
  · rw [decBody_escaped h, decBody_escaped (hd ▸ h), hc]; simp

theorem decAll_frame (xs : List Septet) (s : State) : (decAll xs s).2 = s.setDec (decAll xs s).2.decEsc := by
  induction xs generalizing s with
  | nil => rfl
  | cons x xs ih =>
    simp only [decAll]
    rw [ih, decBody_frame]
    rfl

theorem decAll_length (xs : List Septet) (s : State) : (decAll xs s).1.length ≤ xs.length := by
  induction xs generalizing s with
  | nil => simp [decAll]
  | cons x xs ih =>
    have h := ih (decBody (byteOfSeptet x) s).2
    have hb := decBody_length (byteOfSeptet x) s
    simp only [decAll, List.length_append, List.length_cons]
    omega

theorem decAll_congr {xs : List Septet} {s s' : State} (hd : s.decEsc = s'.decEsc) (hc : s.cfg = s'.cfg) :
    (decAll xs s).1 = (decAll xs s').1 ∧ (decAll xs s).2.decEsc = (decAll xs s').2.decEsc := by
  induction xs generalizing s s' with
  | nil => exact ⟨rfl, hd⟩
  | cons x xs ih =>
    obtain ⟨h1, h2⟩ := decBody_congr (b := byteOfSeptet x) hd hc
    have hc' : (decBody (byteOfSeptet x) s).2.cfg = (decBody (byteOfSeptet x) s').2.cfg := by
      rw [decBody_frame, decBody_frame (s := s')]; simpa using hc
    obtain ⟨k1, k2⟩ := ih h2 hc'
    exact ⟨by simp only [decAll, h1, k1], k2⟩

/-! ### The counters -/

theorem nextFill_toNat (f : BitVec 3) : (nextFill f).toNat = (f.toNat + 7) % 8 := by
  revert f; decide

theorem nextShift_toNat (k : BitVec 3) : (nextShift k).toNat = (k.toNat + 1) % 7 := by
  revert k; decide

/-! ### The bits of the engines, as numbers -/

/-- With `PK_CARRY < 2^PK_FILL`, the emitted octet and what is left over are the pending bits with the septet above them. -/
theorem packOctet_packRest {c : BitVec 7} {v : Septet} {f : BitVec 3} (hc : c.toNat < 2 ^ f.toNat) :
    (packOctet c v f).toNat + 256 * (packRest v f).toNat = c.toNat + 2 ^ f.toNat * v.toNat := by
  have hf := f.isLt
  have hv := v.isLt
  have h7 : 2 ^ f.toNat ≤ 2 ^ 7 := Nat.pow_le_pow_right (by decide) (by omega)
  have e1 : v.toNat % 2 ^ 16 = v.toNat := Nat.mod_eq_of_lt (by omega)
  have e2 : v.toNat * 2 ^ f.toNat % 2 ^ 16 = v.toNat * 2 ^ f.toNat := Nat.mod_eq_of_lt (by nlinarith)
  have e3 : c.toNat % 2 ^ 16 = c.toNat := Nat.mod_eq_of_lt (by omega)
  have ho : (packOctet c v f).toNat = (c.toNat + 2 ^ f.toNat * v.toNat) % 256 := by
    simp only [packOctet, BitVec.toNat_setWidth, BitVec.toNat_or, BitVec.toNat_shiftLeft, Nat.shiftLeft_eq]
    rw [e1, e2, e3, Nat.or_comm, Nat.mul_comm, ← Nat.two_pow_add_eq_or_of_lt hc, Nat.add_comm]
  have hr : (packRest v f).toNat = (c.toNat + 2 ^ f.toNat * v.toNat) / 256 := by
    have hp : (2 : Nat) ^ f.toNat * 2 ^ (8 - f.toNat) = 256 := by
      rw [← Nat.pow_add, show f.toNat + (8 - f.toNat) = 8 by omega]
    rw [← hp, ← Nat.div_div_eq_div_mul, Nat.add_mul_div_left _ _ (by positivity), Nat.div_eq_of_lt hc, Nat.zero_add]
    simp [packRest, Nat.shiftRight_eq_div_pow]
  rw [ho, hr]
  omega

/-- With `UP_ACC < 2^UP_SHIFT`, the window is the pending bits with the octet above them. -/
theorem unpackWindow_toNat {a : BitVec 7} {b : Octet} {k : BitVec 3} (ha : a.toNat < 2 ^ k.toNat) :
    (unpackWindow a b k).toNat = a.toNat + 2 ^ k.toNat * b.toNat := by
  have hk := k.isLt
  have hb := b.isLt
  have h7 : 2 ^ k.toNat ≤ 2 ^ 7 := Nat.pow_le_pow_right (by decide) (by omega)
  have e1 : b.toNat % 2 ^ 16 = b.toNat := Nat.mod_eq_of_lt (by omega)
  have e2 : b.toNat * 2 ^ k.toNat % 2 ^ 16 = b.toNat * 2 ^ k.toNat := Nat.mod_eq_of_lt (by nlinarith)
  have e3 : a.toNat % 2 ^ 16 = a.toNat := Nat.mod_eq_of_lt (by omega)
  simp only [unpackWindow, BitVec.toNat_or, BitVec.toNat_setWidth, BitVec.toNat_shiftLeft, Nat.shiftLeft_eq]
  rw [e1, e2, e3, Nat.or_comm, Nat.mul_comm, ← Nat.two_pow_add_eq_or_of_lt ha, Nat.add_comm]

/-- With `UP_ACC < 2^UP_SHIFT` and `UP_SHIFT` at most 6, the septet and what is left over are the window's bits. -/
theorem unpackWindow_split {a : BitVec 7} {b : Octet} {k : BitVec 3} (ha : a.toNat < 2 ^ k.toNat) (hk : k.toNat ≤ 6) :
    ((unpackWindow a b k).setWidth 7 : Septet).toNat + 128 * ((unpackWindow a b k >>> 7).setWidth 7 : Septet).toNat
      = a.toNat + 2 ^ k.toNat * b.toNat
    ∧ ((unpackWindow a b k >>> 7).setWidth 7 : Septet).toNat < 2 ^ (k.toNat + 1) := by
  have hw := unpackWindow_toNat (b := b) ha
  have hb := b.isLt
  have h6 : 2 ^ k.toNat ≤ 2 ^ 6 := Nat.pow_le_pow_right (by decide) hk
  have hlt : a.toNat + 2 ^ k.toNat * b.toNat < 2 ^ k.toNat * 256 := by nlinarith
  simp only [BitVec.toNat_setWidth, BitVec.toNat_ushiftRight, Nat.shiftRight_eq_div_pow, hw]
  rw [Nat.pow_succ]
  omega

/-! ### The exception and the host -/

@[simp] theorem statusIll_setStatusIll (x : Word) : statusIll (setStatusIll x) = true := by
  simp [statusIll, setStatusIll]

@[simp] theorem raiseIllegal_cfg (w : Word) (s : State) : (raiseIllegal w s).cfg = s.cfg := rfl
@[simp] theorem raiseIllegal_outBuf (w : Word) (s : State) : (raiseIllegal w s).outBuf = s.outBuf := rfl
@[simp] theorem raiseIllegal_received (w : Word) (s : State) : (raiseIllegal w s).received = s.received := rfl

/-- Reading a token, by its two cases. -/
theorem readToken_nil {s : State} (h : s.outBuf = []) : s.readToken = s := by
  simp [State.readToken, h]

theorem readToken_cons {s : State} {t : Token} {ts : List Token} (h : s.outBuf = t :: ts) :
    s.readToken = (s.setOutBuf ts).deliver [.token t] := by
  simp [State.readToken, h]

@[simp] theorem readToken_cfg (s : State) : s.readToken.cfg = s.cfg := by
  unfold State.readToken; split <;> rfl

@[simp] theorem hostAct_cfg (a : HostAct) (s : State) : (hostAct a s).cfg = s.cfg := by
  cases a <;> simp [hostAct, State.resetInput, State.clearRegisters]

end Sys2Proof.Machine
end

