-- ==== Sys2Proof/Laws/PerInstr.lean ====
section
/-! SUPPORT. Laws stated for all commands and proved one command at a time (LAWS.json). -/

namespace Sys2Proof.Laws.LegalWord

/-- The word of a command breaks none of the clauses of 30_encoding.md rule R74. -/
def Statement (i : Instr) : Prop := legalWord (encode i) = true

theorem nop : Statement .nop := by unfold Statement; decide
theorem clr : Statement .clr := by unfold Statement; decide
theorem enc (c : CharVal) : Statement (.enc c) := by
  simp [Statement, legalWord, opAssigned, rsvZero, noneDataZero, byteDataHiZero, encode, Instr.opcode, opcodeForm,
    opField_commandWord, rsvField_commandWord]
theorem encp (c : CharVal) : Statement (.encp c) := by
  simp [Statement, legalWord, opAssigned, rsvZero, noneDataZero, byteDataHiZero, encode, Instr.opcode, opcodeForm,
    opField_commandWord, rsvField_commandWord]
theorem pks (b : Octet) : Statement (.pks b) := by
  simp [Statement, legalWord, opAssigned, rsvZero, noneDataZero, byteDataHiZero, encode, Instr.opcode, Instr.data, opcodeForm,
    opField_commandWord, rsvField_commandWord, dataHiField_commandWord]
theorem pkf : Statement .pkf := by unfold Statement; decide
theorem upo (b : Octet) : Statement (.upo b) := by
  simp [Statement, legalWord, opAssigned, rsvZero, noneDataZero, byteDataHiZero, encode, Instr.opcode, Instr.data, opcodeForm,
    opField_commandWord, rsvField_commandWord, dataHiField_commandWord]
theorem upe : Statement .upe := by unfold Statement; decide
theorem dec (b : Octet) : Statement (.dec b) := by
  simp [Statement, legalWord, opAssigned, rsvZero, noneDataZero, byteDataHiZero, encode, Instr.opcode, Instr.data, opcodeForm,
    opField_commandWord, rsvField_commandWord, dataHiField_commandWord]
theorem dece : Statement .dece := by unfold Statement; decide
theorem upd (b : Octet) : Statement (.upd b) := by
  simp [Statement, legalWord, opAssigned, rsvZero, noneDataZero, byteDataHiZero, encode, Instr.opcode, Instr.data, opcodeForm,
    opField_commandWord, rsvField_commandWord, dataHiField_commandWord]
theorem upde : Statement .upde := by unfold Statement; decide

end Sys2Proof.Laws.LegalWord
end

