-- ==== Sys2Proof/Laws/Rom.lean ====
section
/-! SUPPORT. The lookups of the alphabet ROM, and that the default parameters are well-formed. -/

namespace Sys2Proof

/-- The default parameters meet the conditions of spec 00_scope.md rule R7. -/
theorem Config.default_wf : Config.default.wf = true := by decide +kernel

theorem Config.wf_basic {cfg : Config} (h : cfg.wf = true) : cfg.basic.toList.Nodup := by
  simp only [Config.wf, Bool.and_eq_true, Config.basicInjective, decide_eq_true_eq] at h
  exact h.1.1.1

theorem Config.wf_extCodes {cfg : Config} (h : cfg.wf = true) : (cfg.ext.map Prod.fst).Pairwise (· < ·) := by
  simp only [Config.wf, Bool.and_eq_true, Config.extCodesRise, decide_eq_true_eq] at h
  exact h.1.1.2

theorem Config.wf_extChars {cfg : Config} (h : cfg.wf = true) : (cfg.ext.map Prod.snd).Nodup := by
  simp only [Config.wf, Bool.and_eq_true, Config.extInjective, decide_eq_true_eq] at h
  exact h.1.2

theorem Config.wf_depth {cfg : Config} (h : cfg.wf = true) : 2 ≤ cfg.outDepth := by
  simp only [Config.wf, Bool.and_eq_true, Config.depthAtLeastTwo, decide_eq_true_eq] at h
  exact h.2

/-- The entry at a code is in the table. -/
theorem Config.basicRead_mem (cfg : Config) (i : Septet) : cfg.basicRead i ∈ cfg.basic.toList := by
  simp [Config.basicRead]

/-- What `ExtFind` finds is an entry of the table. -/
theorem Config.mem_of_extFind {cfg : Config} {c : CharVal} {i : Septet} (h : cfg.extFind c = some i) :
    (i, c) ∈ cfg.ext := by
  simp only [Config.extFind, Option.map_eq_some_iff] at h
  obtain ⟨e, he, rfl⟩ := h
  have hc := List.find?_some he
  have hm := List.mem_of_find?_eq_some he
  simp only [beq_iff_eq] at hc
  subst hc
  exact hm

/-- What `ExtRead` reads is an entry of the table, and its index a code. -/
theorem Config.mem_of_extRead {cfg : Config} {n : Nat} {c : CharVal} (h : cfg.extRead n = some c) :
    n ≤ 127 ∧ (BitVec.ofNat 7 n, c) ∈ cfg.ext := by
  unfold Config.extRead at h
  split at h
  · rename_i hn
    simp only [Option.map_eq_some_iff] at h
    obtain ⟨e, he, rfl⟩ := h
    have hc := List.find?_some he
    have hm := List.mem_of_find?_eq_some he
    simp only [beq_iff_eq] at hc
    exact ⟨hn, hc ▸ hm⟩
  · cases h

end Sys2Proof
end

