-- ==== Sys2Proof/Laws/Step.lean ====
section
/-! SUPPORT. What a command and a step can do, said once. -/

namespace Sys2Proof.Machine

theorem State.emit_nil (s : State) : s.emit [] = s := by simp [State.emit]

/-- Every command answers a next state, in which at most the engine registers and the block's status have changed and tokens
were appended. -/
theorem exec_shape (i : Instr) (s : State) : ∃ c f a k p d x e ts,
    exec i s = .next (((((s.setPack c f).setUnpack a k p).setDec d).setErr x e).emit ts) := by
  cases i with
  | nop => exact ⟨s.pkCarry, s.pkFill, s.upAcc, s.upShift, s.upPend, s.decEsc, s.status, s.errcmd, [], by rw [State.emit_nil]; rfl⟩
  | clr => exact ⟨0#7, 0#3, 0#7, 0#3, false, .normal, 0#32, 0#32, [], by rw [State.emit_nil]; rfl⟩
  | enc c =>
    exact ⟨s.pkCarry, s.pkFill, s.upAcc, s.upShift, s.upPend, s.decEsc, s.status, s.errcmd, (encSeq s.cfg c).map .sept, rfl⟩
  | encp c =>
    refine ⟨(packAll (encSeq s.cfg c) s).2.pkCarry, (packAll (encSeq s.cfg c) s).2.pkFill, s.upAcc, s.upShift, s.upPend, s.decEsc, s.status, s.errcmd,
      (packAll (encSeq s.cfg c) s).1.map .oct, ?_⟩
    simp only [exec, execEncp]
    rw [packAll_frame]
    rfl
  | pks b =>
    refine ⟨(packBody b s).2.pkCarry, (packBody b s).2.pkFill, s.upAcc, s.upShift, s.upPend, s.decEsc, s.status, s.errcmd,
      (packBody b s).1.map .oct, ?_⟩
    simp only [exec, execPks]
    rw [packBody_frame]
    rfl
  | pkf =>
    exact ⟨0#7, 0#3, s.upAcc, s.upShift, s.upPend, s.decEsc, s.status, s.errcmd, (packTail s).map .oct, rfl⟩
  | upo b =>
    refine ⟨s.pkCarry, s.pkFill, (unpackBody b s).2.upAcc, (unpackBody b s).2.upShift, (unpackBody b s).2.upPend, s.decEsc, s.status, s.errcmd,
      (unpackBody b s).1.map .sept, ?_⟩
    simp only [exec, execUpo]
    rw [unpackBody_frame]
    rfl
  | upe => exact ⟨s.pkCarry, s.pkFill, 0#7, 0#3, false, s.decEsc, s.status, s.errcmd, [], by rw [State.emit_nil]; rfl⟩
  | dec b =>
    refine ⟨s.pkCarry, s.pkFill, s.upAcc, s.upShift, s.upPend, (decBody b s).2.decEsc, s.status, s.errcmd,
      (decBody b s).1.map .char, ?_⟩
    simp only [exec, execDec]
    rw [decBody_frame]
    rfl
  | dece => exact ⟨s.pkCarry, s.pkFill, s.upAcc, s.upShift, s.upPend, .normal, s.status, s.errcmd, [], by rw [State.emit_nil]; rfl⟩
  | upd b =>
    refine ⟨s.pkCarry, s.pkFill, (unpackBody b s).2.upAcc, (unpackBody b s).2.upShift, (unpackBody b s).2.upPend,
      (decAll (unpackBody b s).1 (unpackBody b s).2).2.decEsc, s.status, s.errcmd,
      (decAll (unpackBody b s).1 (unpackBody b s).2).1.map .char, ?_⟩
    simp only [exec, execUpd]
    rw [decAll_frame, unpackBody_frame]
    rfl
  | upde => exact ⟨s.pkCarry, s.pkFill, 0#7, 0#3, false, .normal, s.status, s.errcmd, [], by rw [State.emit_nil]; rfl⟩

/-- The step with a word that can be accepted. -/
theorem step_accept {s : State} {w : Word} {ws : List Word} (h : s.cmdPort = w :: ws) (hr : s.hasRoom = true) :
    step s = executeWord w (s.setCmdPort ws) := by
  simp [step, blockStep, h, hr]

/-- The step with no word that can be accepted. -/
theorem step_between {s : State} (h : s.cmdPort = [] ∨ s.hasRoom = false) : step s = betweenCommands s := by
  rcases h with h | h
  · simp [step, blockStep, h]
  · unfold step blockStep
    split
    · rfl
    · simp [h]

/-- What a step can do: a word is accepted and names a command or none, or the host acts, or there is nothing to do. -/
theorem step_cases (s : State) :
    (∃ w ws i, s.cmdPort = w :: ws ∧ s.hasRoom = true ∧ decode w = .ok i ∧ step s = exec i (s.setCmdPort ws))
    ∨ (∃ w ws e, s.cmdPort = w :: ws ∧ s.hasRoom = true ∧ decode w = .error e
        ∧ step s = .next (raiseIllegal w (s.setCmdPort ws)))
    ∨ ((s.cmdPort = [] ∨ s.hasRoom = false) ∧ ∃ a as, s.hostActs = a :: as
        ∧ step s = .next (hostAct a (s.setHostActs as)))
    ∨ ((s.cmdPort = [] ∨ s.hasRoom = false) ∧ s.hostActs = [] ∧ step s = .next s) := by
  by_cases hb : s.cmdPort = [] ∨ s.hasRoom = false
  · have hs := step_between hb
    cases ha : s.hostActs with
    | nil => exact .inr (.inr (.inr ⟨hb, rfl, by simp [hs, betweenCommands, ha]⟩))
    | cons a as => exact .inr (.inr (.inl ⟨hb, a, as, rfl, by simp [hs, betweenCommands, ha]⟩))
  · obtain ⟨hc, hr⟩ := not_or.mp hb
    have hr : s.hasRoom = true := by simpa using hr
    cases hp : s.cmdPort with
    | nil => exact absurd hp hc
    | cons w ws =>
      have hs := step_accept hp hr
      cases hd : decode w with
      | ok i => exact .inl ⟨w, ws, i, rfl, hr, hd, by simp [hs, executeWord, hd]⟩
      | error e => exact .inr (.inl ⟨w, ws, e, rfl, hr, hd, by simp [hs, executeWord, hd]⟩)

end Sys2Proof.Machine
end

