-- ==== Sys2Proof/Tests/Slice0.lean ====
section
/-! SUPPORT. The model's own tests: ill-formed terms the checks refuse, a word of each command written bit by bit from the
spec's encodings, at most two single steps a command (their results are the vectors of spec 95_test_vectors.md), and for each
statement with hypotheses a witness that meets them. -/

namespace Sys2Proof.Tests

open Sys2Proof.Machine

/-- Look at the next state an outcome holds. -/
def nextIs (o : Host.Outcome State Fault Refusal) (p : State → Bool) : Bool :=
  match o with
  | .next t => p t
  | .fault _ => false
  | .refused _ => false

/-- The refusal an outcome holds is that of ill-formed parameters. -/
def refusedParameters (o : Host.Outcome State Fault Refusal) : Bool :=
  match o with
  | .refused .badParameters => true
  | _ => false

/-- One step that accepts the word `w` from the state `s`. -/
def accept (s : State) (w : Word) (p : State → Bool) : Bool := nextIs (step (s.withFetchWord 32 w.toNat)) p

/-- A packer in the middle of a call: `PK_CARRY`, `PK_FILL`. -/
def packing (c : BitVec 7) (f : BitVec 3) : State := { State.reset with pkCarry := c, pkFill := f }

/-- An unpacker in the middle of a call. -/
def unpacking (a : BitVec 7) (k : BitVec 3) (p : Bool) : State :=
  { State.reset with upAcc := a, upShift := k, upPend := p }

/-- A decoder that has seen an escape. -/
def escaped : State := { State.reset with decEsc := .escaped }

/-- A block with the smallest output buffer, one token in it, and so no room for a command. -/
def full : State :=
  { State.reset with outBuf := [.sept 1#7], cfg := { Config.default with outDepth := 2 } }

/-! ### Well-formedness: each check refuses an ill-formed term -/

theorem test_wf_basic_repeat :
    ({ Config.default with basic := ⟨⟨List.replicate 128 0x40#24⟩, rfl⟩ } : Config).basicInjective = false := by
  decide +kernel
theorem test_wf_ext_codes :
    ({ Config.default with ext := [(0x14#7, 0x5E#24), (0x0A#7, 0xC#24)] } : Config).extCodesRise = false := by decide
theorem test_wf_ext_repeat :
    ({ Config.default with ext := [(0x0A#7, 0xC#24), (0x14#7, 0xC#24)] } : Config).extInjective = false := by decide
theorem test_wf_depth : ({ Config.default with outDepth := 1 } : Config).depthAtLeastTwo = false := by decide
theorem test_wf_op : opAssigned 0x0000000C#32 = false ∧ legalWord 0x0000000C#32 = false := by decide
theorem test_wf_rsv : rsvZero 0x00000010#32 = false ∧ legalWord 0x00000010#32 = false := by decide
theorem test_wf_data : noneDataZero 0x00000105#32 = false ∧ legalWord 0x00000105#32 = false := by decide
theorem test_wf_datahi : byteDataHiZero 0x00010004#32 = false ∧ legalWord 0x00010004#32 = false := by decide
theorem test_build_refuses : refusedParameters (State.build { Config.default with outDepth := 1 }) = true := by
  simp [refusedParameters, State.build, Config.wf, Config.depthAtLeastTwo]

/-! ### Decoding: a word of each command, from the bit patterns of spec/opcode_table.json -/

theorem test_decode_nop : decode 0b00000000000000000000000000000000#32 = .ok .nop := by decide
theorem test_decode_clr : decode 0b00000000000000000000000000000001#32 = .ok .clr := by decide
theorem test_decode_enc : decode 0b00000000001000001010110000000010#32 = .ok (.enc 0x20AC#24) := by decide
theorem test_decode_encp : decode 0b11111111111111111111111100000011#32 = .ok (.encp 0xFFFFFF#24) := by decide
theorem test_decode_pks : decode 0b00000000000000001100000100000100#32 = .ok (.pks 0xC1#8) := by decide
theorem test_decode_pkf : decode 0b00000000000000000000000000000101#32 = .ok .pkf := by decide
theorem test_decode_upo : decode 0b00000000000000001100100000000110#32 = .ok (.upo 0xC8#8) := by decide
theorem test_decode_upe : decode 0b00000000000000000000000000000111#32 = .ok .upe := by decide
theorem test_decode_dec : decode 0b00000000000000000001101100001000#32 = .ok (.dec 0x1B#8) := by decide
theorem test_decode_dece : decode 0b00000000000000000000000000001001#32 = .ok .dece := by decide
theorem test_decode_upd : decode 0b00000000000000001111110100001010#32 = .ok (.upd 0xFD#8) := by decide
theorem test_decode_upde : decode 0b00000000000000000000000000001011#32 = .ok .upde := by decide
theorem test_decode_illegal : decode 0x0000000C#32 = .error .reservedOp ∧ decode 0x00000010#32 = .error .rsvNonzero
    ∧ decode 0x00000105#32 = .error .dataNonzero ∧ decode 0x00010004#32 = .error .dataHiNonzero := by decide
theorem test_table_word : decodeTableWord 32 0x00004804 = some (.pks 0x48#8) := by decide
theorem test_table_word_short : decodeTableWord 4 0x00004804 = some (.pks 0x00#8) := by decide

/-! ### Single steps -/

-- V-CT-1
theorem test_nop : accept State.reset 0x00000000#32 (fun t => t == State.reset) = true := by decide +kernel
-- V-CT-2: a partial octet is dropped, and a recorded error with it
theorem test_clr : accept { packing 0x48#7 7#3 with status := 1#32, errcmd := 0xC#32 } 0x00000001#32
    (fun t => stateView t == 0#32 && t.status == 0#32 && t.errcmd == 0#32) = true := by decide
-- V-ENC-8, V-ENC-13
theorem test_enc_extension :
    accept State.reset 0x0020AC02#32 (fun t => outputWords t == [0x00001B01#32, 0x00006501#32]) = true := by decide +kernel
theorem test_enc_miss :
    accept State.reset 0x01F60002#32 (fun t => outputWords t == [0x00002001#32]) = true := by decide +kernel
-- V-FU-2
theorem test_encp_extension_at_fill_0 : accept State.reset 0x0020AC03#32
    (fun t => outputWords t == [0x00009B02#32] && stateView t == 0x00000632#32) = true := by decide +kernel
theorem test_encp_extension_at_fill_5 : accept (packing 0x10#7 5#3) 0x0020AC03#32
    (fun t => outputWords t == [0x00007002#32, 0x00005302#32] && stateView t == 0x00000306#32) = true := by decide +kernel
-- V-PK-7
theorem test_pks_masks : accept State.reset 0x0000C104#32
    (fun t => outputWords t == [] && stateView t == 0x00000741#32) = true := by decide
theorem test_pks_emits : accept (packing 0x41#7 7#3) 0x0000FF04#32
    (fun t => outputWords t == [0x0000C102#32] && stateView t == 0x0000063F#32) = true := by decide
-- V-PK-8
theorem test_pkf_zero_septet : accept (packing 0x00#7 7#3) 0x00000005#32
    (fun t => outputWords t == [0x00000002#32] && stateView t == 0#32) = true := by decide
theorem test_pkf_idle : accept State.reset 0x00000005#32 (fun t => outputWords t == [] && stateView t == 0#32) = true := by
  decide
-- V-UP-5, V-UP-4
theorem test_upo_holds : accept (unpacking 0x3F#7 6#3 false) 0x0000FF06#32
    (fun t => outputWords t == [0x00007F01#32] && stateView t == 0x087F0000#32) = true := by decide
theorem test_upo_releases : accept (unpacking 0x01#7 0#3 true) 0x00000906#32
    (fun t => outputWords t == [0x00000101#32, 0x00000901#32] && stateView t == 0x01000000#32) = true := by decide
-- V-UP-5, V-FU-7
theorem test_upe_drops_held : accept (unpacking 0x7F#7 0#3 true) 0x00000007#32
    (fun t => outputWords t == [] && stateView t == 0#32) = true := by decide
theorem test_upe_keeps_escape : accept escaped 0x00000007#32 (fun t => stateView t == 0x10000000#32) = true := by decide
-- V-DEC-6, V-DEC-5
theorem test_dec_escaped_high : accept escaped 0x0000E508#32
    (fun t => outputWords t == [0x00002003#32] && stateView t == 0#32) = true := by decide
theorem test_dec_high : accept State.reset 0x00008008#32
    (fun t => outputWords t == [0x00003F03#32] && stateView t == 0#32) = true := by decide
-- V-DEC-7
theorem test_dece : accept escaped 0x00000009#32 (fun t => outputWords t == [] && stateView t == 0#32) = true := by decide
-- V-FU-5, V-CT-3
theorem test_upd_two : accept (unpacking 0x41#7 0#3 true) 0x0000490A#32
    (fun t => outputWords t == [0x00004103#32, 0x00004903#32] && stateView t == 0x01000000#32) = true := by decide +kernel
theorem test_upd_escape : accept (unpacking 0x01#7 1#3 false) 0x00000D0A#32
    (fun t => outputWords t == [] && stateView t == 0x12000000#32) = true := by decide +kernel
-- V-FU-6
theorem test_upde : accept { escaped with upShift := 1#3 } 0x0000000B#32
    (fun t => outputWords t == [] && stateView t == 0#32) = true := by decide
-- V-IL-2: the first illegal word is recorded, the pack call is left intact; a second one is not recorded
theorem test_illegal_first : accept (packing 0x41#7 7#3) 0x0000000F#32
    (fun t => stateView t == 0x00000741#32 && sidebandValue .status t == 1#32 && t.errcmd == 0xF#32) = true := by decide
theorem test_illegal_second : accept { State.reset with status := 1#32, errcmd := 0xF#32 } 0x00000157#32
    (fun t => sidebandValue .status t == 1#32 && t.errcmd == 0xF#32) = true := by decide
-- P5: the state machine of rule R109 over every branch
theorem test_decode_text : decodeText Config.default .normal [0x41#8, 0x80#8, 0x1B#8, 0x1B#8, 0x1B#8, 0x65#8, 0x1B#8]
    = [0x41#24, 0x3F#24, 0x20#24, 0x20AC#24] := by decide +kernel
-- V-PK-3 and the source's vector "C8329BFD06"
theorem test_packed_form :
    packedForm [0x48#7, 0x65#7, 0x6C#7, 0x6C#7, 0x6F#7] = [0xC8#8, 0x32#8, 0x9B#8, 0xFD#8, 0x06#8] := by decide
-- V-UP-3: the guard drops the eighth septet
theorem test_source_unpack : sourceUnpack [0x81#8, 0x40#8, 0x20#8, 0x10#8, 0x08#8, 0x04#8, 0x02#8]
    = [1#7, 1#7, 1#7, 1#7, 1#7, 1#7, 1#7] := by decide

/-! ### The assembler (spec 30_encoding.md rules R77 to R79) -/

theorem test_asm_char : assembleLine ['E', 'N', 'C', ' ', '\'', 'H', '\''] = .ok [0x00004802#32] := by decide
theorem test_asm_codepoint :
    assembleLine ['E', 'N', 'C', ' ', 'U', '+', '2', '0', 'A', 'C', ' ', ';', 'x'] = .ok [0x0020AC02#32] := by decide
theorem test_asm_escape : assembleLine ['E', 'N', 'C', 'P', ' ', '\'', '\\', 'f', '\''] = .ok [0x00000C03#32] := by decide
theorem test_asm_byte : assembleLine ['U', 'P', 'O', ' ', '0', 'x', 'C', '8'] = .ok [0x0000C806#32] := by decide
theorem test_asm_out_of_range : assembleLine ['P', 'K', 'S', ' ', '2', '5', '6'] = .error .outOfRange := by decide
theorem test_asm_extra_operand : assembleLine ['P', 'K', 'F', ' ', '1'] = .error .badOperand := by decide
theorem test_asm_pseudo : assembleLine ['E', 'N', 'C', 'P', 'S', 'T', 'R', ' ', '"', 'H', 'i', '"']
    = .ok [0x00004803#32, 0x00006903#32, 0x00000005#32] := by decide
theorem test_asm_pseudo_empty : assembleLine ['U', 'P', 'D', 'B', 'Y', 'T', 'E', 'S'] = .ok [0x0000000B#32] := by decide

/-! ### Witnesses: what meets the hypotheses of each statement -/

theorem witness_EncodeOfDecodeIsTheWord : decode 0x0000FF04#32 = .ok (.pks 0xFF#8) := by decide
theorem witness_IllegalWordsAreThoseOfRuleR74 :
    (∀ i, decode 0xFFFFFFFF#32 ≠ .ok i) ∧ decode 0xFFFFFF02#32 = .ok (.enc 0xFFFFFF#24) := by
  refine ⟨fun i h => ?_, by decide⟩
  have e : decode 0xFFFFFFFF#32 = .error .rsvNonzero := by decide
  rw [e] at h
  cases h
theorem witness_TokenWordsAndTokenCount : exec .nop State.reset = .next State.reset
    ∧ (Token.char 0xFFFFFF#24).word = (Token.char 0xFFFFFF#24).word := ⟨rfl, rfl⟩
theorem witness_NopDoesNothing : opField 0x00000000#32 = 0x0#4 ∧ opField 0x80000000#32 = 0x0#4 := by decide
theorem witness_ClrReturnsEveryRegisterToReset : opField 0x00000001#32 = 0x1#4 ∧ opField 0x00000101#32 = 0x1#4
    ∧ Instr.nop ≠ .clr ∧ exec .nop State.reset = .next State.reset := ⟨by decide, by decide, by decide, rfl⟩
theorem witness_EncEmitsTheSeptetsOfTheCharacter :
    (opField 0xFFFFFF02#32 = 0x2#4 ∧ rsvField 0xFFFFFF02#32 = 0#4 ∧ rsvField 0x00000012#32 ≠ 0#4)
    ∧ 0xD800 ≤ (0xD800#24).toNat ∧ (0xDFFF#24).toNat ≤ 0xDFFF ∧ 0x110000 ≤ (0x110000#24).toNat := by decide
theorem witness_DecDecodesOneByte : opField 0x0000FF08#32 = 0x8#4 ∧ opField 0x00010008#32 = 0x8#4 := by decide
theorem witness_DeceReturnsToNormal : opField 0x00000009#32 = 0x9#4 ∧ opField 0x00000109#32 = 0x9#4 := by decide
theorem witness_PksPacksOneSeptet : opField 0x0000FF04#32 = 0x4#4 ∧ opField 0x00000014#32 = 0x4#4 := by decide
theorem witness_PkfEmitsTheFinalPartialOctet : opField 0x00000005#32 = 0x5#4 ∧ opField 0x00000105#32 = 0x5#4 := by decide
/-- With the shift at the end of its range, and with a septet held. -/
theorem witness_UpoUnpacksOneOctet : opField 0x0000FF06#32 = 0x6#4 ∧ opField 0x80000006#32 = 0x6#4
    ∧ (unpacking 0x3F#7 6#3 false).upShift.toNat ≤ 6 ∧ (unpacking 0x01#7 0#3 true).upShift.toNat ≤ 6 := by decide
theorem witness_UpeDiscardsTheRest : opField 0x00000007#32 = 0x7#4 ∧ opField 0x00000157#32 = 0x7#4 := by decide
theorem witness_EncpPacksTheSeptetsOfTheCharacter :
    opField 0xFFFFFF03#32 = 0x3#4 ∧ (encSeq Config.default 0x48#24).length = 1 ∧ (encSeq Config.default 0x7B#24).length = 2
    ∧ Config.default.basicFind 0x1F600#24 = none ∧ Config.default.extFind 0x1F600#24 = none := by decide +kernel
theorem witness_UpdDecodesTheSeptetsOfTheOctet : opField 0x0000FF0A#32 = 0xA#4 ∧ opField 0x0001000A#32 = 0xA#4 := by decide
theorem witness_UpdeEndsThePackedDecodeCall : opField 0x0000000B#32 = 0xB#4 ∧ opField 0x0100000B#32 = 0xB#4 := by decide
/-- `NOP` meets the premise of every clause at once. -/
theorem witness_RegistersACommandMayWrite : exec .nop State.reset = .next State.reset
    ∧ Instr.nop ∈ [Instr.nop, .clr, .upe, .dece, .upde] ∧ Instr.nop ∉ [Instr.clr, .pkf, .upe, .upde, .dece]
    ∧ (∀ b, Instr.nop ≠ .pks b ∧ Instr.nop ≠ .upo b ∧ Instr.nop ≠ .upd b ∧ Instr.nop ≠ .dec b)
    ∧ ∀ c, Instr.nop ≠ .encp c :=
  ⟨rfl, by decide, by decide, fun _ => ⟨by simp, by simp, by simp, by simp⟩, by simp⟩
theorem witness_BasicFindIsTheUniqueCode : Config.default.wf = true ∧ Config.default.basicRead 0x7F#7 = 0xE0#24
    ∧ Config.default.basicFind 0xE0#24 = some 0x7F#7 := ⟨Config.default_wf, by decide +kernel, by decide +kernel⟩
theorem witness_ExtensionLookupsAgree : Config.default.wf = true ∧ Config.default.extRead 0x65 = some 0x20AC#24
    ∧ Config.default.extFind 0x20AC#24 = some 0x65#7 ∧ 128 ≤ 128 ∧ Config.default.extRead 128 = none :=
  ⟨Config.default_wf, by decide, by decide, by decide, by decide⟩
theorem witness_DefaultTablesHoldTheSpecsEntries :
    (0x30 ≤ (0x30#7).toNat ∧ (0x39#7).toNat ≤ 0x39) ∧ (0x7F, 0x00E0) ∈ [(0x7E, 0x00FC), (0x7F, 0x00E0)]
    ∧ 0x1B ∉ [0x0A, 0x14, 0x28, 0x29, 0x2F, 0x3C, 0x3D, 0x3E, 0x40, 0x65]
    ∧ Config.default.extRead 0x65 = some 0x20AC#24 := by decide
theorem witness_NoStepWritesTheRom : step State.reset = .next State.reset := rfl
theorem witness_EncIsAPureLookup : State.reset.cfg = escaped.cfg := rfl
theorem witness_TextOfNCharactersGivesNTo2NSeptets :
    Config.default.basicFind 0x7B#24 = none ∧ Config.default.extFind 0x7B#24 = some 0x28#7 := by decide +kernel
theorem witness_UnsupportedCharacterActsAsSpace : State.reset.cfg.wf = true
    ∧ State.reset.cfg.basicRead 0x20#7 = 0x20#24 ∧ State.reset.cfg.basicFind 0x1F600#24 = none
    ∧ State.reset.cfg.extFind 0x1F600#24 = none :=
  ⟨Config.default_wf, by decide +kernel, by decide +kernel, by decide +kernel⟩
theorem witness_EscapeAfterEscapeIsAnExtensionCode : escaped.decEsc = .escaped := rfl
theorem witness_FillAfterNSeptets : State.reset.pkFill = 0#3 := rfl
/-- The premise of the statements about calls: every engine idle. -/
theorem witness_idle_engines :
    packIdle State.reset = true ∧ unpackIdle State.reset = true ∧ decIdle State.reset = true := by decide
theorem witness_PaddingIsIgnored : unpackIdle State.reset = true ∧ [0xC8#8].length = [0x48#8].length
    ∧ bitString [0xC8#8] % 2 ^ (7 * unpackedLength [0xC8#8].length)
      = bitString [0x48#8] % 2 ^ (7 * unpackedLength [0xC8#8].length) := by decide
/-- A text for both round-trips: "H" and a left curly bracket, three septets. -/
theorem witness_round_trips : State.reset.cfg.wf = true
    ∧ (∀ c ∈ [0x48#24, 0x7B#24], c ≠ State.reset.cfg.basicRead 0x1B#7
      ∧ ((State.reset.cfg.basicFind c).isSome = true ∨ (State.reset.cfg.extFind c).isSome = true))
    ∧ (encodeText State.reset.cfg [0x48#24, 0x7B#24]).length % 8 ≠ 0 := by
  have e : State.reset.cfg.basicRead 0x1B#7 = 0x1B#24 := by decide +kernel
  have h : State.reset.cfg.basicFind 0x48#24 = some 0x48#7 := by decide +kernel
  have x : State.reset.cfg.extFind 0x7B#24 = some 0x28#7 := by decide +kernel
  exact ⟨Config.default_wf, by simp [e, h, x], by decide +kernel⟩
theorem witness_IllegalCommandSetsStatusAndErrcmdOnly :
    let s : State := { State.reset with cmdPort := [0x0000000C#32, 0x00004804#32] }
    s.cmdPort = 0x0000000C#32 :: [0x00004804#32] ∧ s.hasRoom = true ∧ legalWord 0x0000000C#32 = false
    ∧ decode 0x00004804#32 = .ok (.pks 0x48#8) := by decide
theorem witness_RecordedErrorStaysUntilClrOrReset :
    let s : State := { State.reset with status := 1#32, errcmd := 0xC#32 }
    step s = .next s ∧ statusIll s.status = true := ⟨rfl, by decide⟩
theorem witness_SidebandReadsShowTheRegisters :
    (let s : State := { State.reset with hostActs := [.readSideband .state] }
     s.hostActs = .readSideband .state :: [] ∧ s.cmdPort = [])
    ∧ full.hasRoom = false := by decide
theorem witness_StatusReadsIllAndZeros : legalWord 0xFFFFFFFF#32 = false := by decide
theorem witness_ResetInputClearsRegistersAndOutput :
    let s : State := { full with hostActs := [.assertReset], cmdPort := [0x00000005#32] }
    s.hostActs = .assertReset :: [] ∧ s.hasRoom = false := by decide
/-- For each clause, two states that agree on the registers it names and differ in every other engine's. -/
theorem witness_EnginesAreIndependent :
    (let s := packing 0x41#7 7#3
     let s' : State := { s with upAcc := 1#7, decEsc := .escaped, outBuf := [.sept 1#7] }
     s.pkCarry = s'.pkCarry ∧ s.pkFill = s'.pkFill ∧ s.cfg = s'.cfg)
    ∧ (let s := unpacking 0x41#7 0#3 true
       let s' : State := { s with pkCarry := 1#7, pkFill := 1#3, decEsc := .escaped, outBuf := [.sept 1#7] }
       s.upAcc = s'.upAcc ∧ s.upShift = s'.upShift ∧ s.upPend = s'.upPend)
    ∧ (let s := escaped
       let s' : State := { s with pkFill := 1#3, upAcc := 0x41#7, upPend := true, outBuf := [.sept 1#7] }
       s.decEsc = s'.decEsc ∧ s.cfg = s'.cfg)
    ∧ (let s := unpacking 0x41#7 0#3 true
       let s' : State := { s with pkCarry := 1#7, pkFill := 1#3, outBuf := [.sept 1#7] }
       s.upAcc = s'.upAcc ∧ s.upShift = s'.upShift ∧ s.upPend = s'.upPend ∧ s.decEsc = s'.decEsc ∧ s.cfg = s'.cfg) :=
  ⟨⟨rfl, rfl, rfl⟩, ⟨rfl, rfl, rfl⟩, ⟨rfl, rfl⟩, ⟨rfl, rfl, rfl, rfl, rfl⟩⟩
/-- With exactly two places left. -/
theorem witness_StepRunsTheDecodedCommand :
    let s : State := { State.reset with cmdPort := [0x00004804#32], cfg := { Config.default with outDepth := 2 } }
    s.cmdPort = 0x00004804#32 :: [] ∧ s.outBuf.length + 2 = s.cfg.outDepth
    ∧ decode 0x00004804#32 = .ok (.pks 0x48#8) := by decide
theorem witness_PlacedWordRunsNext : 2 ≤ full.cfg.outDepth ∧ full.hasRoom = false ∧ State.reset.hasRoom = true
    ∧ decodeTableWord 32 0x00004804 = some (.pks 0x48#8) := by decide
/-- With exactly one place left, and each of the two acts. -/
theorem witness_NoRoomNoCommand :
    let s : State := { full with cmdPort := [0x00000005#32] }
    let r : State := { s with hostActs := [.readToken] }
    s.cmdPort = 0x00000005#32 :: [] ∧ s.cfg.outDepth + 1 = s.outBuf.length + 2 ∧ s.hostActs = []
    ∧ r.hostActs = .readToken :: [] ∧ r.outBuf = .sept 1#7 :: [] := by decide
theorem witness_HostActsAtThePorts :
    let p : State := { full with cmdPort := [0x00000005#32], hostActs := [.present 0x00000007#32] }
    let r : State := { State.reset with hostActs := [.readToken] }
    let f : State := { full with hostActs := [.readToken] }
    (State.reset.cmdPort = [] ∧ State.reset.hostActs = [])
    ∧ (p.cmdPort ≠ [] ∧ p.hasRoom = false ∧ p.hostActs = .present 0x00000007#32 :: [])
    ∧ (r.cmdPort = [] ∧ r.hostActs = .readToken :: [] ∧ r.outBuf = [])
    ∧ (f.cmdPort = [] ∧ f.hostActs = .readToken :: [] ∧ f.outBuf = .sept 1#7 :: []) := by decide
theorem witness_TokensComeOutInOrder :
    let s : State := { full with hostActs := [.assertReset] }
    step s = .next (s.resetInput.setHostActs []) := rfl
theorem witness_EveryStepKeepsTheInvariant : State.build Config.default = .next State.reset
    ∧ step State.reset = .next State.reset := by
  refine ⟨?_, rfl⟩
  rw [State.build, if_pos Config.default_wf]
  rfl
theorem witness_PseudoInstructionsAssembleToCalls :
    (['P', 'A', 'C', 'K', 'S', 'E', 'P', 'T'], 0x4#4, some 0x5#4) ∈ pseudoTable
    ∧ (['N', 'O', 'P'], 0x0#4) ∈ mnemonicTable := by decide
-- the model's choice (log entry 12): a pseudo-instruction of a string needs its string
theorem test_asm_bare_string : assembleLine ['E', 'N', 'C', 'S', 'T', 'R'] = .error .badOperand
    ∧ assembleLine ['E', 'N', 'C', 'S', 'T', 'R', ' ', '"', '"'] = .ok [] := by decide
theorem witness_AssembledWordsDecode : opcodeForm 0x0#4 = some .none ∧ opcodeForm 0x3#4 = some .char
    ∧ opcodeForm 0xA#4 = some .byte ∧ assembleCommand 0xA#4 (some 255) = .ok 0x0000FF0A#32 := by decide

end Sys2Proof.Tests
end

section
/-! PROOFS. What the block's registers read as after reset, between commands and after each command (spec 10_state.md rules
R22, R28, R30 and R32): obligations O25, O44, O45 and O46. -/

namespace Sys2Proof.Laws

/-! ### Legal words and the decoder -/

/-- The clauses of 30_encoding.md rule R74 and the decoder's refusals are the same, `OP` by `OP`. -/
theorem legalWord_iff_exists_decode_ok (w : Word) : legalWord w = true ↔ ∃ i, decode w = .ok i := by
  by_cases hr : rsvField w = 0#4
  · rw [decode_of_rsv_zero hr]
    rcases op_cases (opField w) with h | h | h | h | h | h | h | h | h | h | h | h | h | h | h | h <;>
      simp [legalWord, opAssigned, rsvZero, noneDataZero, byteDataHiZero, opcodeForm, decodeOp, decodeNone, decodeChar,
        decodeByte, h, hr, ite_eq_iff]
  · simp [decode_of_rsv hr, legalWord, rsvZero, hr]

theorem exists_decode_error_of_not_legalWord {w : Word} (h : legalWord w = false) : ∃ e, decode w = .error e := by
  cases hd : decode w with
  | ok i =>
    have hl := (legalWord_iff_exists_decode_ok w).mpr ⟨i, hd⟩
    simp [h] at hl
  | error e => exact ⟨e, rfl⟩

end Sys2Proof.Laws

namespace Sys2Proof.Machine

open Sys2Proof.Laws

/-! ### Fields placed in a word -/

/-- A word of zeros but for `x`, whose bit 0 stands at bit `k`. -/
def placedAt {w : Nat} (k : Nat) (x : BitVec w) : Word := x.setWidth 32 <<< k

theorem getElem_placedAt {w : Nat} (k : Nat) (x : BitVec w) {n : Nat} (h : n < 32) :
    (placedAt k x)[n] = (decide (k ≤ n) && x.getLsbD (n - k)) := by
  by_cases hk : k ≤ n <;> simp [placedAt, hk]

theorem extractLsb'_placedAt_same {w : Nat} (k : Nat) (x : BitVec w) (h : k + w ≤ 32) :
    (placedAt k x).extractLsb' k w = x := by
  ext i hi
  have hn : k + i < 32 := by omega
  simp [BitVec.getLsbD_eq_getElem hn, getElem_placedAt, hi]

theorem extractLsb'_placedAt_disjoint {w : Nat} (k : Nat) (x : BitVec w) {j m : Nat} (hj : j + m ≤ 32)
    (h : j + m ≤ k ∨ k + w ≤ j) : (placedAt k x).extractLsb' j m = 0#m := by
  ext i hi
  have hn : j + i < 32 := by omega
  rw [BitVec.getElem_extractLsb', BitVec.getLsbD_eq_getElem hn, getElem_placedAt k x hn, BitVec.getElem_zero]
  rcases h with below | above
  · have hk : ¬ k ≤ j + i := by omega
    simp [hk]
  · have hx : x.getLsbD (j + i - k) = false := BitVec.getLsbD_of_ge _ _ (by omega)
    simp [hx]

/-! ### What the sideband port reads -/

/-- The `STATE` view as the table of 10_state.md rule R30 gives it: each register at its place. -/
theorem stateView_eq_or_placedAt (s : State) : stateView s = placedAt 0 s.pkCarry ||| placedAt 8 s.pkFill
    ||| placedAt 16 s.upAcc ||| placedAt 24 s.upShift ||| placedAt 27 (BitVec.ofBool s.upPend)
    ||| placedAt 28 (decEscBit s.decEsc) := by
  simp [stateView, placedAt]

/-- The multi-bit fields of the `STATE` view. -/
theorem stateView_fields (s : State) :
    (stateView s).extractLsb' 0 7 = s.pkCarry ∧ (stateView s).extractLsb' 8 3 = s.pkFill
    ∧ (stateView s).extractLsb' 16 7 = s.upAcc ∧ (stateView s).extractLsb' 24 3 = s.upShift := by
  simp [stateView_eq_or_placedAt, BitVec.extractLsb'_or, extractLsb'_placedAt_same, extractLsb'_placedAt_disjoint]

/-- The gaps between the fields of the `STATE` view. -/
theorem stateView_gaps (s : State) :
    (stateView s).extractLsb' 7 1 = 0#1 ∧ (stateView s).extractLsb' 11 5 = 0#5 ∧ (stateView s).extractLsb' 23 1 = 0#1
    ∧ (stateView s).extractLsb' 29 3 = 0#3 := by
  simp [stateView_eq_or_placedAt, BitVec.extractLsb'_or, extractLsb'_placedAt_disjoint]

theorem stateView_upPend (s : State) : (stateView s).getLsbD 27 = s.upPend := by
  simp [stateView_eq_or_placedAt, getElem_placedAt]

theorem stateView_decEsc (s : State) : (stateView s).getLsbD 28 = decide (s.decEsc = .escaped) := by
  cases h : s.decEsc <;> simp [stateView_eq_or_placedAt, getElem_placedAt, decEscBit, h]

theorem readStatus_reserved (x : Word) : (readStatus x).extractLsb' 1 31 = 0#31 := by
  ext i hi
  simp [readStatus]

theorem readStatus_ill (x : Word) : (readStatus x).getLsbD 0 = x.getLsbD 0 := by
  simp [readStatus]

theorem readStatus_setStatusIll (x : Word) : readStatus (setStatusIll x) = 1#32 := by
  ext i hi
  by_cases h : i = 0 <;> simp [readStatus, setStatusIll, h]

/-- A sideband read sees the registers alone, not the acts the host has left. -/
theorem sidebandValue_setHostActs (r : SidebandReg) (s : State) (as : List HostAct) :
    sidebandValue r (s.setHostActs as) = sidebandValue r s := by
  cases r <;> rfl

/-! ### What leaves the status registers alone -/

/-- Every command but `CLR` leaves `STATUS` and `ERRCMD` alone. -/
theorem exec_keeps_status_errcmd {i : Instr} (hi : i ≠ .clr) (s : State) :
    ∃ t, exec i s = .next t ∧ t.status = s.status ∧ t.errcmd = s.errcmd := by
  cases i with
  | clr => exact absurd rfl hi
  | nop | enc | pkf | upe | dece | upde => exact ⟨_, rfl, rfl, rfl⟩
  | encp c => exact ⟨_, rfl, by rw [packAll_frame]; exact ⟨rfl, rfl⟩⟩
  | pks b => exact ⟨_, rfl, by rw [packBody_frame]; exact ⟨rfl, rfl⟩⟩
  | upo b => exact ⟨_, rfl, by rw [unpackBody_frame]; exact ⟨rfl, rfl⟩⟩
  | dec b => exact ⟨_, rfl, by rw [decBody_frame]; exact ⟨rfl, rfl⟩⟩
  | upd b => exact ⟨_, rfl, by rw [decAll_frame, unpackBody_frame]; exact ⟨rfl, rfl⟩⟩

/-- Of the acts of the host, reset alone writes `STATUS`. -/
theorem hostAct_status (a : HostAct) (s : State) :
    (hostAct a s).status = if a = .assertReset then 0#32 else s.status := by
  cases a with
  | present w => rfl
  | readSideband r => rfl
  | assertReset => rfl
  | readToken =>
    cases h : s.outBuf with
    | nil => simp [hostAct, readToken_nil h]
    | cons t ts => simp [hostAct, readToken_cons h]

/-! ### The obligations -/

/-- Settles O44: the bits of the view are those of its six registers at their places, and with no word to accept the step is
the host's act. -/
theorem sidebandReadsShowTheRegisters : Obligations.SidebandReadsShowTheRegisters := by
  refine ⟨fun s => ?_, fun s r as hacts hblocked => ?_⟩
  · obtain ⟨hcarry, hfill, hacc, hshift⟩ := stateView_fields s
    obtain ⟨h7, h11, h23, h29⟩ := stateView_gaps s
    exact ⟨hcarry, h7, hfill, h11, hacc, h23, hshift, stateView_upPend s, stateView_decEsc s, h29⟩
  · rw [step_between hblocked, betweenCommands, hacts]
    simp only [hostAct, sidebandValue_setHostActs]
    rfl

/-- Settles O25: the septets of `ENC c` are `EncSeq(c)`, which reads the parameters alone. -/
theorem encIsAPureLookup : Obligations.EncIsAPureLookup := by
  intro c s s' hcfg
  exact ⟨(encSeq s.cfg c).map .sept, rfl, by rw [hcfg]; rfl⟩

/-- Settles O45, clause by clause: the mask of a `STATUS` read, reset, an illegal word, the commands, the acts of the host. -/
theorem statusReadsIllAndZeros : Obligations.StatusReadsIllAndZeros := by
  refine ⟨fun s => ⟨readStatus_reserved s.status, readStatus_ill s.status⟩, rfl, fun w s hw => ?_, fun i s => ?_,
    fun a s => ?_⟩
  · obtain ⟨e, he⟩ := exists_decode_error_of_not_legalWord hw
    exact ⟨raiseIllegal w s, by simp [executeWord, he], readStatus_setStatusIll s.status⟩
  · by_cases hi : i = .clr
    · subst hi
      exact ⟨s.clearRegisters, rfl, by simp [sidebandValue, readStatus, State.clearRegisters]⟩
    · obtain ⟨t, ht, hstatus, -⟩ := exec_keeps_status_errcmd hi s
      exact ⟨t, ht, by simp [sidebandValue, hstatus, hi]⟩
  · simp only [sidebandValue, hostAct_status]
    split <;> rfl

/-- Settles O46: `State.reset` writes each register of 10_state.md rule R20 as 0. -/
theorem resetValuesAreZero : Obligations.ResetValuesAreZero :=
  ⟨rfl, rfl, rfl, rfl, rfl, rfl, rfl, rfl⟩

end Sys2Proof.Machine
end

section
/-! PROOFS. The alphabet ROM (spec 20_memory.md rules R40 and R43): obligations O20 and O23. -/

namespace Sys2Proof

/-! ### The lookups of the basic table -/

theorem Config.basicRead_eq_toList_getElem (cfg : Config) (i : Septet) :
    cfg.basicRead i = cfg.basic.toList[i.toNat]'(by simpa using i.isLt) := by
  simp [Config.basicRead]

/-- Every entry of the basic table has a code. -/
theorem Config.exists_basicRead_of_mem {cfg : Config} {c : CharVal} (h : c ∈ cfg.basic.toList) :
    ∃ i, cfg.basicRead i = c := by
  obtain ⟨n, hn, rfl⟩ := List.getElem_of_mem h
  have hlt : n < 2 ^ 7 := by simpa using hn
  exact ⟨BitVec.ofNatLT n hlt, cfg.basicRead_eq_toList_getElem _⟩

/-- With well-formed parameters no two codes hold one character (20_memory.md rule R41). -/
theorem Config.basicRead_injective {cfg : Config} (h : cfg.wf = true) : Function.Injective cfg.basicRead := by
  intro i j hij
  rw [cfg.basicRead_eq_toList_getElem, cfg.basicRead_eq_toList_getElem] at hij
  exact BitVec.eq_of_toNat_eq ((Config.wf_basic h).getElem_inj_iff.mp hij)

/-- What `BasicFind` finds is a code of the character, in every table. -/
theorem Config.basicRead_of_basicFind {cfg : Config} {c : CharVal} {i : Septet} (h : cfg.basicFind c = some i) :
    cfg.basicRead i = c := by
  obtain ⟨n, hn, rfl⟩ := Option.map_eq_some_iff.mp h
  obtain ⟨hlen, hc, -⟩ := List.findIdx?_eq_some_iff_getElem.mp hn
  have hlt : n < 128 := by simpa using hlen
  simpa [Config.basicRead_eq_toList_getElem, Nat.mod_eq_of_lt hlt] using hc

/-- `BasicFind` misses exactly the characters with no code, in every table. -/
theorem Config.basicFind_eq_none_iff {cfg : Config} {c : CharVal} :
    cfg.basicFind c = none ↔ ∀ i, cfg.basicRead i ≠ c := by
  have hmem : cfg.basicFind c = none ↔ c ∉ cfg.basic.toList := by
    simp only [Config.basicFind, Option.map_eq_none_iff, List.findIdx?_eq_none_iff, beq_eq_false_iff_ne,
      List.forall_mem_ne']
  rw [hmem]
  constructor
  · rintro hc i rfl
    exact hc (cfg.basicRead_mem i)
  · intro hne hc
    obtain ⟨i, hi⟩ := Config.exists_basicRead_of_mem hc
    exact hne i hi

/-- With well-formed parameters `BasicFind` is the inverse of `BasicRead`: it finds some code, and there is only one. -/
theorem Config.basicFind_eq_some_iff {cfg : Config} (h : cfg.wf = true) {c : CharVal} {i : Septet} :
    cfg.basicFind c = some i ↔ cfg.basicRead i = c := by
  refine ⟨Config.basicRead_of_basicFind, fun hi => ?_⟩
  cases hf : cfg.basicFind c with
  | none => exact absurd hi (Config.basicFind_eq_none_iff.mp hf i)
  | some j =>
    have hj := Config.basicRead_of_basicFind hf
    rw [Config.basicRead_injective h (hj.trans hi.symm)]

/-- Settles O20: a found code is read back, a code of the character is found, and the table is injective. -/
theorem basicFindIsTheUniqueCode : Obligations.BasicFindIsTheUniqueCode := by
  intro cfg c hwf
  exact ⟨fun i => Config.basicFind_eq_some_iff hwf, Config.basicFind_eq_none_iff,
    fun i j hi hj => Config.basicRead_injective hwf (hi.trans hj.symm)⟩

end Sys2Proof

namespace Sys2Proof.Machine

/-! ### The parameters along a step -/

/-- No command writes the parameters. -/
theorem exec_keeps_cfg {i : Instr} {s t : State} (h : exec i s = .next t) : t.cfg = s.cfg := by
  obtain ⟨c, f, a, k, p, d, x, e, ts, hs⟩ := exec_shape i s
  obtain rfl := Host.Outcome.next.inj (hs.symm.trans h)
  simp

/-- Settles O23, by what a step can do: a command, an illegal word, an act of the host (reset among them), or nothing. -/
theorem noStepWritesTheRom : Obligations.NoStepWritesTheRom := by
  intro s t h
  obtain ⟨w, ws, i, -, -, -, hs⟩ | ⟨w, ws, e, -, -, -, hs⟩ | ⟨-, a, as, -, hs⟩ | ⟨-, -, hs⟩ := step_cases s
  · exact (exec_keeps_cfg (hs.symm.trans h)).trans (s.setCmdPort_cfg ws)
  all_goals
    obtain rfl := Host.Outcome.next.inj (hs.symm.trans h)
    simp

end Sys2Proof.Machine
end

section
/-! PROOFS. Which command words are legal and how many there are, and the words and the number of the output tokens (spec
30_encoding.md rules R74 and R76): obligations O4 and O5. -/

namespace Sys2Proof.Laws

/-! ### The clauses of rule R74 -/

/-- A legal word breaks none of the four clauses. -/
theorem legalWord_iff (w : Word) : legalWord w = true ↔ opcodeForm (opField w) ≠ none ∧ rsvField w = 0#4
    ∧ (opcodeForm (opField w) = some .none → dataField w = 0#24)
    ∧ (opcodeForm (opField w) = some .byte → dataHiField w = 0#16) := by
  simp only [legalWord, opAssigned, rsvZero, noneDataZero, byteDataHiZero, Bool.and_eq_true, Bool.or_eq_true,
    bne_iff_ne, beq_iff_eq, Option.isSome_iff_ne_none, imp_iff_not_or, and_assoc, ne_eq]

theorem opcodeForm_eq_none_iff (op : BitVec 4) : opcodeForm op = none ↔ 12 ≤ op.toNat := by
  revert op; decide

theorem opcodeForm_eq_some_none_iff (op : BitVec 4) :
    opcodeForm op = some .none ↔ op.toNat ∈ [0, 1, 5, 7, 9, 11] := by
  revert op; decide

theorem opcodeForm_eq_some_byte_iff (op : BitVec 4) : opcodeForm op = some .byte ↔ op.toNat ∈ [4, 6, 8, 10] := by
  revert op; decide

/-- A word with no command breaks one of the four clauses. -/
theorem forall_decode_ne_ok_iff (w : Word) : (∀ i, decode w ≠ .ok i) ↔
    12 ≤ (opField w).toNat ∨ rsvField w ≠ 0#4
    ∨ ((opField w).toNat ∈ [0, 1, 5, 7, 9, 11] ∧ dataField w ≠ 0#24)
    ∨ ((opField w).toNat ∈ [4, 6, 8, 10] ∧ dataHiField w ≠ 0#16) := by
  rw [← not_exists, ← legalWord_iff_exists_decode_ok, legalWord_iff, ← opcodeForm_eq_none_iff,
    ← opcodeForm_eq_some_none_iff, ← opcodeForm_eq_some_byte_iff]
  tauto

/-! ### What an accepted word does -/

theorem executeWord_of_no_command {w : Word} (h : ∀ i, decode w ≠ .ok i) (s : Machine.State) :
    Machine.executeWord w s = .next (Machine.raiseIllegal w s) := by
  cases hd : decode w with
  | ok i => exact absurd hd (h i)
  | error e => simp [Machine.executeWord, hd]

theorem executeWord_of_command {w : Word} {i : Instr} (h : decode w = .ok i) (s : Machine.State) :
    Machine.executeWord w s = Machine.exec i s := by
  simp [Machine.executeWord, h]

/-! ### Counting the legal words -/

/-- The `DATA` fields with which a command of an operand form is legal (30_encoding.md rule R72). -/
def legalData : OperandForm → Set (BitVec 24)
  | .none => {0#24}
  | .char => Set.univ
  | .byte => Set.range (BitVec.setWidth 24 : Octet → BitVec 24)

/-- `DATAHI` is 0 exactly when `DATA` is a zero-extended byte. -/
theorem dataHiField_eq_zero_iff (w : Word) : dataHiField w = 0#16 ↔ dataField w ∈ legalData .byte := by
  constructor
  · intro h
    exact ⟨byteOperand w, (dataField_of_dataHi_zero h).symm⟩
  · rintro ⟨b, hb : b.setWidth 24 = dataField w⟩
    have h := dataHiField_commandWord 0#4 b
    rwa [dataHiField_eq, dataField_commandWord, hb, ← dataHiField_eq] at h

/-- A word of a given operand form names a command when `RSV` is 0 and its `DATA` is one of the form's. -/
theorem exists_decode_ok_iff_of_form {w : Word} {f : OperandForm} (h : opcodeForm (opField w) = some f) :
    (∃ i, decode w = .ok i) ↔ rsvField w = 0#4 ∧ dataField w ∈ legalData f := by
  rw [← legalWord_iff_exists_decode_ok, legalWord_iff, h]
  cases f with
  | none => simp [legalData]
  | char => simp [legalData]
  | byte => simp [dataHiField_eq_zero_iff]

/-- The legal words of a form are those put together from an `OP` and a `DATA` of the form. -/
theorem legalWords_eq_image (f : OperandForm) :
    { w : Word | (∃ i, decode w = .ok i) ∧ opcodeForm (opField w) = some f }
      = Function.uncurry commandWord '' ({ op | opcodeForm op = some f } ×ˢ legalData f) := by
  ext w
  constructor
  · rintro ⟨hok, hf⟩
    obtain ⟨hrsv, hdata⟩ := (exists_decode_ok_iff_of_form hf).mp hok
    exact ⟨(opField w, dataField w), ⟨hf, hdata⟩, (eq_commandWord hrsv).symm⟩
  · rintro ⟨⟨op, d⟩, ⟨hf, hdata⟩, rfl⟩
    have hform : opcodeForm (opField (commandWord op d)) = some f := by rwa [opField_commandWord]
    refine ⟨(exists_decode_ok_iff_of_form hform).mpr ⟨rsvField_commandWord op d, ?_⟩, hform⟩
    rwa [dataField_commandWord]

theorem commandWord_injective : Function.Injective (Function.uncurry commandWord) := by
  rintro ⟨op, d⟩ ⟨op', d'⟩ h
  have ho := congrArg opField h
  have hd := congrArg dataField h
  simp only [Function.uncurry_apply_pair, opField_commandWord, dataField_commandWord] at ho hd
  rw [ho, hd]

/-- There are as many legal words of a form as pairs of an `OP` and a `DATA` of the form. -/
theorem card_legalWords (f : OperandForm) :
    Nat.card { w : Word // (∃ i, decode w = .ok i) ∧ opcodeForm (opField w) = some f }
      = Set.ncard { op | opcodeForm op = some f } * (legalData f).ncard := by
  calc Nat.card { w : Word // (∃ i, decode w = .ok i) ∧ opcodeForm (opField w) = some f }
    _ = (Function.uncurry commandWord '' ({ op | opcodeForm op = some f } ×ˢ legalData f)).ncard := by
      rw [← legalWords_eq_image]; rfl
    _ = ({ op | opcodeForm op = some f } ×ˢ legalData f).ncard :=
      Set.ncard_image_of_injective _ commandWord_injective
    _ = _ := Set.ncard_prod

theorem card_bitVec (n : Nat) : Nat.card (BitVec n) = 2 ^ n :=
  (Nat.card_congr BitVec.equivFin.toEquiv).trans (Nat.card_fin _)

/-- Zero-extension loses nothing. -/
theorem setWidth_injective {w v : Nat} (hwv : w ≤ v) : Function.Injective (BitVec.setWidth v : BitVec w → BitVec v) := by
  intro x y h
  simpa [hwv] using congrArg (BitVec.setWidth w) h

theorem ncard_opcodes_of_form (f : OperandForm) : Set.ncard { op | opcodeForm op = some f }
    = match f with | .none => 6 | .char => 2 | .byte => 4 := by
  rw [Set.ncard_eq_toFinset_card']
  cases f with
  | none => decide
  | char => decide
  | byte => decide

theorem ncard_legalData (f : OperandForm) : (legalData f).ncard
    = match f with | .none => 1 | .char => 2 ^ 24 | .byte => 256 := by
  cases f with
  | none => exact Set.ncard_singleton _
  | char => rw [legalData, Set.ncard_univ, card_bitVec]
  | byte => exact (Set.ncard_range_of_injective (setWidth_injective (by decide))).trans (card_bitVec 8)

/-! ### The obligation -/

/-- Settles O4: the clauses of `legalWord` are those of rule R74, and the legal words of a form are counted as the pairs of an
`OP` and a `DATA` they are put together from. -/
theorem illegalWordsAreThoseOfRuleR74 : Obligations.IllegalWordsAreThoseOfRuleR74 := by
  refine ⟨forall_decode_ne_ok_iff, fun w s h => executeWord_of_no_command h s,
    fun w i h => ⟨fun j hj => ?_, executeWord_of_command h⟩, ?_, ?_, ?_⟩
  · exact Except.ok.inj (hj.symm.trans h)
  all_goals simp only [card_legalWords, ncard_opcodes_of_form, ncard_legalData]

end Sys2Proof.Laws

namespace Sys2Proof.Machine

open Sys2Proof.Laws

/-! ### The word of a token -/

/-- A token's word is laid out as a command word is: `KIND` in the place of `OP`, `VALUE` in the place of `DATA`. -/
theorem Token.word_eq_commandWord (t : Token) : t.word = commandWord t.kind t.value := rfl

theorem Token.opField_word_mem (t : Token) : (opField t.word).toNat ∈ [1, 2, 3] := by
  rw [Token.word_eq_commandWord, opField_commandWord]
  cases t <;> simp [Token.kind]

/-- The kind gives the width of the value, so the two determine the token. -/
theorem Token.eq_of_kind_value {t u : Token} (hk : t.kind = u.kind) (hv : t.value = u.value) : t = u := by
  cases t with
  | sept v =>
    cases u with
    | sept v' => exact congrArg Token.sept (setWidth_injective (by decide) hv)
    | oct | char => simp [Token.kind] at hk
  | oct v =>
    cases u with
    | oct v' => exact congrArg Token.oct (setWidth_injective (by decide) hv)
    | sept | char => simp [Token.kind] at hk
  | char c =>
    cases u with
    | char c' => exact congrArg Token.char hv
    | sept | oct => simp [Token.kind] at hk

theorem Token.word_injective : Function.Injective Token.word := by
  intro t u h
  have hp : (t.kind, t.value) = (u.kind, u.value) := commandWord_injective h
  exact Token.eq_of_kind_value (congrArg Prod.fst hp) (congrArg Prod.snd hp)

/-- Bits 31:15 of a word are bits 23:7 of its `DATA`. -/
theorem extractLsb'_15_eq_dataField (w : Word) : w.extractLsb' 15 17 = (dataField w).extractLsb' 7 17 := by
  ext i hi
  have hdata : 7 + i < 24 := by omega
  simp [dataField, hdata, ← Nat.add_assoc]

/-- A septet leaves bits 23:7 of its token's `VALUE` 0. -/
theorem Token.sept_word_high (v : Septet) : (Token.sept v).word.extractLsb' 15 17 = 0#17 := by
  rw [extractLsb'_15_eq_dataField, Token.word_eq_commandWord, dataField_commandWord]
  ext i hi
  simp [Token.value]

/-! ### How many tokens a command emits -/

theorem packTail_length (s : State) : (packTail s).length ≤ 1 := by
  unfold packTail
  split <;> simp

theorem encSeq_length_le (cfg : Config) (c : CharVal) : (encSeq cfg c).length ≤ 2 := by
  have h := encSeq_length cfg c
  omega

theorem unpackBody_length_le (b : Octet) (s : State) : (unpackBody b s).1.length ≤ 2 := by
  rw [unpackBody_length]
  split <;> omega

/-- Every command appends at most two tokens to the output buffer. -/
theorem exec_appends_at_most_two (i : Instr) (s : State) :
    ∃ t ts, exec i s = .next t ∧ ts.length ≤ 2 ∧ t.outBuf = s.outBuf ++ ts := by
  cases i with
  | nop | clr | upe | dece | upde => exact ⟨_, [], rfl, by simp, (List.append_nil _).symm⟩
  | enc c => exact ⟨_, _, rfl, by simpa using encSeq_length_le s.cfg c, rfl⟩
  | encp c =>
    have hlen := (packAll_length (encSeq s.cfg c) s).trans (encSeq_length_le s.cfg c)
    exact ⟨_, (packAll (encSeq s.cfg c) s).1.map .oct, rfl, by simpa using hlen, by rw [packAll_frame]; rfl⟩
  | pks b =>
    have hlen : (packBody b s).1.length ≤ 2 := by rw [packBody_length]; split <;> omega
    exact ⟨_, (packBody b s).1.map .oct, rfl, by simpa using hlen, by rw [packBody_frame]; rfl⟩
  | pkf => exact ⟨_, _, rfl, by simpa using (packTail_length s).trans one_le_two, rfl⟩
  | upo b =>
    exact ⟨_, (unpackBody b s).1.map .sept, rfl, by simpa using unpackBody_length_le b s,
      by rw [unpackBody_frame]; rfl⟩
  | dec b =>
    exact ⟨_, (decBody b s).1.map .char, rfl, by simpa using (decBody_length b s).trans one_le_two,
      by rw [decBody_frame]; rfl⟩
  | upd b =>
    have hlen := (decAll_length (unpackBody b s).1 (unpackBody b s).2).trans (unpackBody_length_le b s)
    exact ⟨_, (decAll (unpackBody b s).1 (unpackBody b s).2).1.map .char, rfl, by simpa using hlen,
      by rw [decAll_frame, unpackBody_frame]; rfl⟩

/-- Settles O5: a token's word is a command word's layout with `KIND` as `OP`, whose fields give the token back. -/
theorem tokenWordsAndTokenCount : Obligations.TokenWordsAndTokenCount := by
  refine ⟨fun v => ?_, fun v => ?_, fun c => rfl,
    fun t => ⟨t.opField_word_mem, rsvField_commandWord t.kind t.value⟩, Token.sept_word_high, Token.word_injective,
    fun i s t h => ?_⟩
  · simp [Token.word, Token.value, Token.kind]
  · simp [Token.word, Token.value, Token.kind]
  · obtain ⟨t', ts, ht, hlen, hout⟩ := exec_appends_at_most_two i s
    obtain rfl := Host.Outcome.next.inj (ht.symm.trans h)
    exact ⟨ts, hlen, hout⟩

end Sys2Proof.Machine
end

section
/-! PROOFS. What a command word of each operand form decodes to, and the alphabet family: `ENC`, `DEC` and `DECE`, and a whole
text encoded (spec 30_encoding.md rules R72 to R74; 40_alphabet.md rules R101, R102, R105, R106 and R108): obligations O8, O9,
O10, O26 and O28. -/

namespace Sys2Proof.Laws

/-- Given its `OP`, a word is the one put together from `OP` and `DATA` when `RSV` is 0 and `DATA` is that one. -/
theorem eq_commandWord_iff {w : Word} {op : BitVec 4} (ho : opField w = op) (d : BitVec 24) :
    w = commandWord op d ↔ rsvField w = 0#4 ∧ dataField w = d := by
  constructor
  · rintro rfl
    exact ⟨rsvField_commandWord op d, dataField_commandWord op d⟩
  · rintro ⟨hr, rfl⟩
    rw [← ho]
    exact eq_commandWord hr

/-! ### The decoder, by operand form

Each lemma asks for the row of the opcode map the word falls under (30_encoding.md rule R73), which its `OP` gives. -/

/-- A `NONE` form has one legal word. -/
theorem decode_of_noneForm {w : Word} {op : BitVec 4} {i : Instr} (ho : opField w = op)
    (h : decodeOp w = decodeNone w i) :
    if w = commandWord op 0#24 then decode w = .ok i else ∀ j, decode w ≠ .ok j := by
  simp only [eq_commandWord_iff ho]
  by_cases hr : rsvField w = 0#4
  · by_cases hd : dataField w = 0#24 <;> simp [decode_of_rsv_zero, h, decodeNone, hr, hd]
  · simp [decode_of_rsv, hr]

theorem decode_of_charForm {w : Word} {f : CharVal → Instr} (h : decodeOp w = decodeChar w f) :
    if rsvField w = 0#4 then decode w = .ok (f (charOperand w)) else ∀ j, decode w ≠ .ok j := by
  by_cases hr : rsvField w = 0#4
  · simp [decode_of_rsv_zero, h, decodeChar, hr]
  · simp [decode_of_rsv, hr]

theorem decode_of_byteForm {w : Word} {f : Octet → Instr} (h : decodeOp w = decodeByte w f) :
    if rsvField w = 0#4 ∧ dataHiField w = 0#16 then decode w = .ok (f (byteOperand w))
    else ∀ j, decode w ≠ .ok j := by
  by_cases hr : rsvField w = 0#4
  · by_cases hd : dataHiField w = 0#16 <;> simp [decode_of_rsv_zero, h, decodeByte, hr, hd]
  · simp [decode_of_rsv, hr]

end Sys2Proof.Laws

namespace Sys2Proof

/-! ### The default tables -/

/-- Every entry of the default basic table lies above U+0000 and below the surrogates. -/
theorem Config.default_basicRead_range (i : Septet) :
    0 < (Config.default.basicRead i).toNat ∧ (Config.default.basicRead i).toNat < 0xD800 := by
  revert i; decide +kernel

/-- So does every entry of the default extension table. -/
theorem Config.default_ext_range {i : Septet} {c : CharVal} (h : (i, c) ∈ Config.default.ext) :
    0 < c.toNat ∧ c.toNat < 0xD800 := by
  have hall : Config.default.ext.all (fun e => 0 < e.2.toNat ∧ e.2.toNat < 0xD800) = true := by decide
  simpa using List.all_eq_true.mp hall (i, c) h

/-- A character outside that range is in neither default table. -/
theorem Config.default_misses {c : CharVal} (h : ¬ (0 < c.toNat ∧ c.toNat < 0xD800)) :
    Config.default.basicFind c = none ∧ Config.default.extFind c = none := by
  constructor
  · exact Config.basicFind_eq_none_iff.mpr fun i hi => h (hi ▸ Config.default_basicRead_range i)
  · cases hf : Config.default.extFind c with
    | none => rfl
    | some j => exact absurd (Config.default_ext_range (Config.mem_of_extFind hf)) h

end Sys2Proof

namespace Sys2Proof.Machine

open Sys2Proof.Laws

/-! ### The meanings of the alphabet family -/

theorem exec_enc (c : CharVal) (s : State) : exec (.enc c) s = .next (s.emit ((encSeq s.cfg c).map .sept)) := rfl

theorem exec_dec (b : Octet) (s : State) :
    exec (.dec b) s = .next ((decBody b s).2.emit ((decBody b s).1.map .char)) := rfl

theorem exec_dece (s : State) : exec .dece s = .next (s.setDec .normal) := rfl

theorem DecState.eq_normal_of_ne_escaped {d : DecState} (h : d ≠ .escaped) : d = .normal := by
  cases d with
  | normal => rfl
  | escaped => exact absurd rfl h

/-- In `ESCAPED` every byte, the escape code included, is looked up in the extension table (40_alphabet.md rules R105 and
R106). -/
theorem exec_dec_escaped {s : State} (h : s.decEsc = .escaped) (b : Octet) :
    exec (.dec b) s = .next ((s.setDec .normal).emit [.char ((s.cfg.extRead b.toNat).getD spChar)]) := by
  rw [exec_dec, decBody_escaped h]
  rfl

/-- In `NORMAL` the class of the byte decides (40_alphabet.md rule R105). -/
theorem exec_dec_normal {s : State} (h : s.decEsc = .normal) (b : Octet) :
    exec (.dec b) s = .next (if b = byteOfSeptet escSeptet then s.setDec .escaped
      else if b.toNat < 0x80 then s.emit [.char (s.cfg.basicRead (septetOf b))] else s.emit [.char qmChar]) := by
  rw [exec_dec, decBody_normal h]
  split_ifs with hesc hlow
  · exact congrArg _ (State.emit_nil _)
  · rfl
  · rfl

/-! ### Commands one after another -/

theorem State.emit_emit (s : State) (ts us : List Token) : (s.emit ts).emit us = s.emit (ts ++ us) := by
  simp [State.emit]

theorem execAll_cons {i : Instr} {s t : State} (h : exec i s = .next t) (is : List Instr) :
    execAll (i :: is) s = execAll is t := by
  simp [execAll, h]

theorem encodeText_cons (cfg : Config) (c : CharVal) (text : List CharVal) :
    encodeText cfg (c :: text) = encSeq cfg c ++ encodeText cfg text := rfl

/-- The `ENC` commands of a text emit the septets of the text and do nothing else. -/
theorem execAll_encStr (text : List CharVal) (s : State) :
    execAll (encStr text) s = .next (s.emit ((encodeText s.cfg text).map .sept)) := by
  induction text generalizing s with
  | nil => exact congrArg _ s.emit_nil.symm
  | cons c text ih =>
    calc execAll (encStr (c :: text)) s
      _ = execAll (encStr text) (s.emit ((encSeq s.cfg c).map .sept)) := execAll_cons (exec_enc c s) _
      _ = .next (s.emit ((encodeText s.cfg (c :: text)).map .sept)) := by
        rw [ih, State.emit_emit, State.emit_cfg, encodeText_cons, List.map_append]

/-- Each character gives one septet or two. -/
theorem encodeText_length (cfg : Config) (text : List CharVal) :
    text.length ≤ (encodeText cfg text).length ∧ (encodeText cfg text).length ≤ 2 * text.length := by
  induction text with
  | nil => simp [encodeText]
  | cons c text ih =>
    have hc := encSeq_length cfg c
    rw [encodeText_cons, List.length_append, List.length_cons]
    omega

/-! ### The obligations -/

/-- Settles O26: the commands emit `encodeText`, to which each character gives one septet or two. -/
theorem textOfNCharactersGivesNTo2NSeptets : Obligations.TextOfNCharactersGivesNTo2NSeptets := by
  refine ⟨fun cfg c j hbasic hext => ?_, fun text s => ?_⟩
  · simp [encSeq, hbasic, hext, escSeptet]
  · exact ⟨encodeText s.cfg text, execAll_encStr text s, rfl, encodeText_length s.cfg text⟩

/-- Settles O8: a `CHAR` form, the three cases of `EncSeq(c)`, and the range of the default entries. -/
theorem encEmitsTheSeptetsOfTheCharacter : Obligations.EncEmitsTheSeptetsOfTheCharacter := by
  refine ⟨fun w hop => ?_, fun c s => ?_, fun c hc => Config.default_misses ?_, ?_, ?_⟩
  · exact decode_of_charForm (by simp [decodeOp, hop])
  · rw [exec_enc]
    rcases encSeq_cases s.cfg c with ⟨i, hb, hseq⟩ | ⟨j, hb, he, hseq⟩ | ⟨hb, he, hseq⟩
    · simp [State.emit, hseq, hb]
    · simp [State.emit, hseq, hb, he, escSeptet]
    · simp [State.emit, hseq, hb, he, spSeptet]
  · rcases hc with hsurrogate | hhigh | rfl
    · omega
    · omega
    · decide
  · exact (Config.basicFind_eq_some_iff Config.default_wf).mpr (by decide +kernel)
  · exact (Config.basicFind_eq_some_iff Config.default_wf).mpr (by decide +kernel)

/-- Settles O9: a `BYTE` form, and `DEC` by the decode state, then by the class of the byte. -/
theorem decDecodesOneByte : Obligations.DecDecodesOneByte := by
  refine ⟨fun w hop => decode_of_byteForm (by simp [decodeOp, hop]), fun b s => ?_⟩
  by_cases hs : s.decEsc = .escaped
  · rw [exec_dec_escaped hs, if_pos hs]
    cases s.cfg.extRead b.toNat <;> rfl
  · rw [exec_dec_normal (DecState.eq_normal_of_ne_escaped hs), if_neg hs]
    rfl

/-- Settles O10: a `NONE` form, whose one legal word is 9. -/
theorem deceReturnsToNormal : Obligations.DeceReturnsToNormal := by
  refine ⟨fun w hop => ?_, exec_dece⟩
  have h9 : commandWord 0x9#4 0#24 = 9#32 := by decide
  rw [← h9]
  exact decode_of_noneForm hop (by simp [decodeOp, hop])

/-- Settles O28: the lookup `DEC` makes in `ESCAPED`, at the code the default table leaves out. -/
theorem escapeAfterEscapeIsAnExtensionCode : Obligations.EscapeAfterEscapeIsAnExtensionCode :=
  ⟨fun _ hs => exec_dec_escaped hs 0x1B#8, by decide, by decide +kernel⟩

end Sys2Proof.Machine
end

section
/-! PROOFS. The pack family: `PKS` and `PKF` (spec 41_pack.md rules R121 and R124): obligations O11 and O12. -/

namespace Sys2Proof

/-- The packer's septet is the byte masked to 7 bits. -/
theorem septetOf_toNat (b : Octet) : (septetOf b).toNat = b.toNat &&& 0x7F := by
  rw [septetOf, BitVec.toNat_setWidth]
  exact (Nat.and_two_pow_sub_one_eq_mod b.toNat 7).symm

end Sys2Proof

namespace Sys2Proof.Machine

open Sys2Proof.Laws

/-! ### The packer's arithmetic on unbounded naturals (00_scope.md rule R8) -/

/-- The 16 bits the shift is made in hold every bit of it. -/
theorem septet_shiftLeft_lt (v : Septet) (f : BitVec 3) : v.toNat <<< f.toNat < 2 ^ 16 := by
  have hf : f.toNat ≤ 7 := by omega
  calc v.toNat <<< f.toNat
    _ < 2 ^ (7 + f.toNat) := Nat.shiftLeft_lt v.isLt
    _ ≤ 2 ^ 16 := Nat.pow_le_pow_right (by decide) (by omega)

theorem packOctet_eq_ofNat (c : BitVec 7) (v : Septet) (f : BitVec 3) :
    packOctet c v f = BitVec.ofNat 8 ((c.toNat ||| (v.toNat <<< f.toNat)) &&& 0xFF) := by
  have hc : c.toNat % 2 ^ 16 = c.toNat := Nat.mod_eq_of_lt (by omega)
  have hv : v.toNat % 2 ^ 16 = v.toNat := Nat.mod_eq_of_lt (by omega)
  have hs : v.toNat <<< f.toNat % 2 ^ 16 = v.toNat <<< f.toNat := Nat.mod_eq_of_lt (septet_shiftLeft_lt v f)
  have hmask (n : Nat) : n &&& 0xFF = n % 2 ^ 8 := Nat.and_two_pow_sub_one_eq_mod n 8
  apply BitVec.eq_of_toNat_eq
  simp only [packOctet, BitVec.toNat_setWidth, BitVec.toNat_or, BitVec.toNat_shiftLeft, BitVec.toNat_ofNat, hc, hv, hs,
    hmask, Nat.mod_mod]

theorem packRest_eq_ofNat (v : Septet) (f : BitVec 3) :
    packRest v f = BitVec.ofNat 7 (v.toNat >>> (8 - f.toNat)) := by
  rw [← BitVec.toNat_ushiftRight, BitVec.ofNat_toNat, BitVec.setWidth_eq, packRest]

theorem toNat_eq_zero_iff {w : Nat} (x : BitVec w) : x.toNat = 0 ↔ x = 0#w := by
  rw [BitVec.toNat_eq, BitVec.toNat_zero]

/-- With bits pending, one more septet in and one octet out leave one bit less. -/
theorem nextFill_of_ne_zero {f : BitVec 3} (h : f ≠ 0#3) : nextFill f = BitVec.ofNat 3 (f.toNat - 1) := by
  revert f; decide

/-! ### The meanings of the pack family -/

theorem exec_pks (b : Octet) (s : State) :
    exec (.pks b) s = .next ((packBody b s).2.emit ((packBody b s).1.map .oct)) := rfl

theorem exec_pkf (s : State) : exec .pkf s = .next ((s.emit ((packTail s).map .oct)).setPack 0#7 0#3) := rfl

/-- With no bits pending the septet opens a new octet. -/
theorem exec_pks_empty {s : State} (h : s.pkFill = 0#3) (b : Octet) :
    exec (.pks b) s = .next (s.setPack (septetOf b) 7#3) := by
  rw [exec_pks, packBody_empty h]
  exact congrArg _ (State.emit_nil _)

/-- With bits pending the septet fills an octet up, and the bits that do not fit are kept. -/
theorem exec_pks_filled {s : State} (h : s.pkFill ≠ 0#3) (b : Octet) :
    exec (.pks b) s = .next ((s.setPack (packRest (septetOf b) s.pkFill) (nextFill s.pkFill)).emit
      [.oct (packOctet s.pkCarry (septetOf b) s.pkFill)]) := by
  rw [exec_pks, packBody_filled h]
  rfl

theorem packTail_empty {s : State} (h : s.pkFill = 0#3) : packTail s = [] := if_pos h

theorem packTail_filled {s : State} (h : s.pkFill ≠ 0#3) : packTail s = [s.pkCarry.setWidth 8] := if_neg h

/-! ### The obligations -/

/-- Settles O11: a `BYTE` form, and `PKS` by whether bits are pending, its words as numbers. -/
theorem pksPacksOneSeptet : Obligations.PksPacksOneSeptet := by
  refine ⟨fun w hop => decode_of_byteForm (by simp [decodeOp, hop]), fun b s => ?_⟩
  simp only [← septetOf_toNat, toNat_eq_zero_iff]
  by_cases h : s.pkFill = 0#3
  · rw [exec_pks_empty h, if_pos h, BitVec.ofNat_toNat, BitVec.setWidth_eq]
    rfl
  · rw [exec_pks_filled h, if_neg h, packOctet_eq_ofNat, packRest_eq_ofNat, nextFill_of_ne_zero h]
    rfl

/-- Settles O12: a `NONE` form, whose one legal word is 5, and `PKF` by whether bits are pending. -/
theorem pkfEmitsTheFinalPartialOctet : Obligations.PkfEmitsTheFinalPartialOctet := by
  refine ⟨fun w hop => ?_, fun s => ?_⟩
  · have h5 : commandWord 0x5#4 0#24 = 5#32 := by decide
    rw [← h5]
    exact decode_of_noneForm hop (by simp [decodeOp, hop])
  · simp only [exec_pkf, ne_eq, toNat_eq_zero_iff]
    by_cases h : s.pkFill = 0#3
    · rw [packTail_empty h, if_neg (not_not_intro h), List.map_nil, State.emit_nil]
      rfl
    · rw [packTail_filled h, if_pos h]
      rfl

end Sys2Proof.Machine
end

section
/-! PROOFS. The unpack family: `UPO` and `UPE`, and a whole unpack call (spec 42_unpack.md rules R140, R141 and R144):
obligations O13, O14 and O33. -/

namespace Sys2Proof.Machine

open Sys2Proof.Laws

/-! ### The unpacker's arithmetic on unbounded naturals (00_scope.md rule R8) -/

/-- The 16 bits of the window hold every bit of the shifted octet, in any state. -/
theorem unpackWindow_toNat_eq_or (a : BitVec 7) (b : Octet) (k : BitVec 3) :
    (unpackWindow a b k).toNat = a.toNat ||| (b.toNat <<< k.toNat) := by
  have hk : k.toNat ≤ 7 := by omega
  have hshift : b.toNat <<< k.toNat < 2 ^ 16 :=
    calc b.toNat <<< k.toNat
      _ < 2 ^ (8 + k.toNat) := Nat.shiftLeft_lt b.isLt
      _ ≤ 2 ^ 16 := Nat.pow_le_pow_right (by decide) (by omega)
  have ha : a.toNat % 2 ^ 16 = a.toNat := Nat.mod_eq_of_lt (by omega)
  have hb : b.toNat % 2 ^ 16 = b.toNat := Nat.mod_eq_of_lt (by omega)
  simp only [unpackWindow, BitVec.toNat_or, BitVec.toNat_setWidth, BitVec.toNat_shiftLeft, ha, hb,
    Nat.mod_eq_of_lt hshift]

/-- The septet an octet emits. -/
theorem unpackWindow_low_eq_ofNat (a : BitVec 7) (b : Octet) (k : BitVec 3) :
    (unpackWindow a b k).setWidth 7 = BitVec.ofNat 7 (a.toNat ||| (b.toNat <<< k.toNat)) := by
  rw [← unpackWindow_toNat_eq_or, BitVec.ofNat_toNat]

/-- The bits an octet leaves over. -/
theorem unpackWindow_rest_eq_ofNat (a : BitVec 7) (b : Octet) (k : BitVec 3) :
    (unpackWindow a b k >>> 7).setWidth 7 = BitVec.ofNat 7 ((a.toNat ||| (b.toNat <<< k.toNat)) >>> 7) := by
  rw [← unpackWindow_toNat_eq_or, ← BitVec.toNat_ushiftRight, BitVec.ofNat_toNat]

/-- With `UP_SHIFT` at most 6 the accumulator keeps every bit left over. -/
theorem unpackWindow_rest_toNat (a : BitVec 7) (b : Octet) {k : BitVec 3} (hk : k.toNat ≤ 6) :
    ((unpackWindow a b k >>> 7).setWidth 7).toNat = (a.toNat ||| (b.toNat <<< k.toNat)) >>> 7 := by
  have hshift : b.toNat <<< k.toNat < 2 ^ 14 :=
    calc b.toNat <<< k.toNat
      _ < 2 ^ (8 + k.toNat) := Nat.shiftLeft_lt b.isLt
      _ ≤ 2 ^ 14 := Nat.pow_le_pow_right (by decide) (by omega)
  have hlt : a.toNat ||| (b.toNat <<< k.toNat) < 2 ^ 14 := Nat.or_lt_two_pow (by omega) hshift
  rw [unpackWindow_rest_eq_ofNat, BitVec.toNat_ofNat, Nat.mod_eq_of_lt]
  rw [Nat.shiftRight_eq_div_pow]
  omega

theorem nextShift_eq_zero_iff (k : BitVec 3) : nextShift k = 0#3 ↔ (k.toNat + 1) % 7 = 0 := by
  rw [← toNat_eq_zero_iff, nextShift_toNat]

/-! ### One octet -/

theorem releaseHeld_of_not_pend {s : State} (h : s.upPend = false) : releaseHeld s = ([], s) := by
  simp [releaseHeld, h]

theorem releaseHeld_of_pend {s : State} (h : s.upPend = true) :
    releaseHeld s = ([s.upAcc], s.setUnpack 0#7 s.upShift false) := by
  simp [releaseHeld, h]

/-- `UnpackBody` in one form: what was held, then the low septet of the window of what `releaseHeld` left. -/
theorem unpackBody_eq (b : Octet) (s : State) :
    unpackBody b s = ((releaseHeld s).1 ++ [(unpackWindow (releaseHeld s).2.upAcc b s.upShift).setWidth 7],
      s.setUnpack ((unpackWindow (releaseHeld s).2.upAcc b s.upShift >>> 7).setWidth 7) (nextShift s.upShift)
        (decide (nextShift s.upShift = 0#3))) := by
  cases h : s.upPend
  · rw [unpackBody_plain h, releaseHeld_of_not_pend h]
    rfl
  · rw [unpackBody_held h, releaseHeld_of_pend h]
    rfl

theorem exec_upo (b : Octet) (s : State) :
    exec (.upo b) s = .next ((unpackBody b s).2.emit ((unpackBody b s).1.map .sept)) := rfl

theorem exec_upe (s : State) : exec .upe s = .next (s.setUnpack 0#7 0#3 false) := rfl

/-- Settles O13: a `BYTE` form, and `UPO` by whether a septet is held, its words as numbers. The premise on the shift is not
needed: of what a shift of 7 would leave over, the statement keeps the same 7 bits as the register. -/
theorem upoUnpacksOneOctet : Obligations.UpoUnpacksOneOctet := by
  refine ⟨fun w hop => decode_of_byteForm (by simp [decodeOp, hop]), fun b s _ => ?_⟩
  have hmask (n : Nat) : BitVec.ofNat 7 (n &&& 0x7F) = BitVec.ofNat 7 n := by
    apply BitVec.eq_of_toNat_eq
    simp [Nat.and_two_pow_sub_one_eq_mod n 7]
  simp only [hmask, ← nextShift_eq_zero_iff]
  rw [exec_upo, unpackBody_eq, unpackWindow_low_eq_ofNat, unpackWindow_rest_eq_ofNat]
  cases h : s.upPend
  · simp [releaseHeld_of_not_pend h, State.emit, State.setUnpack, nextShift]
  · simp [releaseHeld_of_pend h, State.emit, State.setUnpack, nextShift]

/-- Settles O14: a `NONE` form, whose one legal word is 7. -/
theorem upeDiscardsTheRest : Obligations.UpeDiscardsTheRest := by
  refine ⟨fun w hop => ?_, exec_upe⟩
  have h7 : commandWord 0x7#4 0#24 = 7#32 := by decide
  rw [← h7]
  exact decode_of_noneForm hop (by simp [decodeOp, hop])

/-! ### The source's loop, one octet at a time -/

/-- After the last octet nothing more is emitted, on a wrap of the shift as without one: the source's guard. -/
theorem sourceUnpackFrom_singleton (a k : Nat) (o : Octet) :
    sourceUnpackFrom a k [o] = [BitVec.ofNat 7 (a ||| (o.toNat <<< k))] := by
  simp [sourceUnpackFrom]

/-- On a wrap with octets to come, what is left over is emitted as a septet of its own. -/
theorem sourceUnpackFrom_wrap {k : Nat} (hk : (k + 1) % 7 = 0) {os : List Octet} (hos : os ≠ []) (a : Nat) (o : Octet) :
    sourceUnpackFrom a k (o :: os) = BitVec.ofNat 7 (a ||| (o.toNat <<< k))
      :: BitVec.ofNat 7 ((a ||| (o.toNat <<< k)) >>> 7) :: sourceUnpackFrom 0 0 os := by
  simp [sourceUnpackFrom, hk, hos]

theorem sourceUnpackFrom_no_wrap {k : Nat} (hk : (k + 1) % 7 ≠ 0) (a : Nat) (o : Octet) (os : List Octet) :
    sourceUnpackFrom a k (o :: os) = BitVec.ofNat 7 (a ||| (o.toNat <<< k))
      :: sourceUnpackFrom ((a ||| (o.toNat <<< k)) >>> 7) ((k + 1) % 7) os := by
  simp [sourceUnpackFrom, hk]

/-! ### The unpacker runs the source's loop

The source emits the septet of a wrap at once and looks ahead for the last octet; `UPO` holds it for the next octet. So the
two are compared through what the unpacker's state has still to emit. -/

/-- What the source's loop emits for the octets to come, from where the unpacker stands: a held septet only if there are any. -/
def outputToCome (s : State) (os : List Octet) : List Septet :=
  if os = [] then []
  else (releaseHeld s).1 ++ sourceUnpackFrom (releaseHeld s).2.upAcc.toNat s.upShift.toNat os

theorem outputToCome_nil (s : State) : outputToCome s [] = [] := rfl

theorem outputToCome_of_pend {s : State} (h : s.upPend = true) {os : List Octet} (hos : os ≠ []) :
    outputToCome s os = s.upAcc :: sourceUnpackFrom 0 s.upShift.toNat os := by
  simp [outputToCome, hos, releaseHeld_of_pend h]

theorem outputToCome_of_not_pend {s : State} (h : s.upPend = false) (os : List Octet) :
    outputToCome s os = sourceUnpackFrom s.upAcc.toNat s.upShift.toNat os := by
  cases os with
  | nil => rfl
  | cons o os => simp [outputToCome, releaseHeld_of_not_pend h]

/-- One octet emits its part of what was to come. -/
theorem outputToCome_cons {s : State} (hk : s.upShift.toNat ≤ 6) (o : Octet) (os : List Octet) :
    outputToCome s (o :: os) = (unpackBody o s).1 ++ outputToCome (unpackBody o s).2 os := by
  rw [outputToCome, if_neg (List.cons_ne_nil o os), unpackBody_eq, List.append_assoc,
    unpackWindow_low_eq_ofNat (releaseHeld s).2.upAcc o s.upShift]
  congr 1
  by_cases hos : os = []
  · rw [hos, outputToCome_nil, sourceUnpackFrom_singleton, List.append_nil]
  · by_cases hwrap : (s.upShift.toNat + 1) % 7 = 0
    · have hzero : nextShift s.upShift = 0#3 := (nextShift_eq_zero_iff _).mpr hwrap
      rw [sourceUnpackFrom_wrap hwrap hos, outputToCome_of_pend (by simp [hzero]) hos, hzero]
      simp [unpackWindow_rest_eq_ofNat]
    · have hzero : nextShift s.upShift ≠ 0#3 := mt (nextShift_eq_zero_iff _).mp hwrap
      rw [sourceUnpackFrom_no_wrap hwrap, outputToCome_of_not_pend (by simp [hzero])]
      simp [unpackWindow_rest_toNat _ _ hk, nextShift_toNat]

/-- What is to come depends on the UNPACK registers, not on the output buffer. -/
theorem outputToCome_emit (s : State) (ts : List Token) (os : List Octet) :
    outputToCome (s.emit ts) os = outputToCome s os := by
  cases h : s.upPend <;> simp [outputToCome, releaseHeld, h]

theorem unpackBody_upShift_le (b : Octet) (s : State) : (unpackBody b s).2.upShift.toNat ≤ 6 := by
  rw [unpackBody_eq, State.setUnpack_upShift, nextShift_toNat]
  omega

/-- An unpack call with `UP_SHIFT` at most 6, as in every state a block can be in (10_state.md rule R24). -/
theorem execAll_unpackOct_of_shift_le {s : State} (hk : s.upShift.toNat ≤ 6) (os : List Octet) :
    execAll (unpackOct os) s = .next ((s.setUnpack 0#7 0#3 false).emit ((outputToCome s os).map .sept)) := by
  induction os generalizing s with
  | nil => exact congrArg _ (State.emit_nil _).symm
  | cons o os ih =>
    have hframe (ts : List Token) :
        ((unpackBody o s).2.emit ts).setUnpack 0#7 0#3 false = (s.setUnpack 0#7 0#3 false).emit ts := by
      rw [unpackBody_frame]
      rfl
    calc execAll (unpackOct (o :: os)) s
      _ = execAll (unpackOct os) ((unpackBody o s).2.emit ((unpackBody o s).1.map .sept)) :=
        execAll_cons (exec_upo o s) _
      _ = .next ((s.setUnpack 0#7 0#3 false).emit ((outputToCome s (o :: os)).map .sept)) := by
        rw [ih (by simpa using unpackBody_upShift_le o s), hframe, outputToCome_emit, State.emit_emit,
          outputToCome_cons hk, List.map_append]

theorem unpackIdle_iff (s : State) : unpackIdle s = true ↔ s.upShift = 0#3 ∧ s.upAcc = 0#7 ∧ s.upPend = false := by
  simp [unpackIdle, and_assoc]

/-- An unpack call from an idle unpacker, which leaves it idle. -/
theorem execAll_unpackOct {s : State} (h : unpackIdle s = true) (os : List Octet) :
    execAll (unpackOct os) s = .next (s.emit ((sourceUnpack os).map .sept)) := by
  obtain ⟨hshift, hacc, hpend⟩ := (unpackIdle_iff s).mp h
  have hidle : s.setUnpack 0#7 0#3 false = s := by rw [← hshift, ← hacc, ← hpend]; rfl
  rw [execAll_unpackOct_of_shift_le (by simp [hshift]), outputToCome_of_not_pend hpend, hidle, hshift, hacc]
  rfl

/-! ### The source's loop computes the equation -/

/-- The first `n` septets of a bit string (42_unpack.md rule R140: `u_j = (B >> (7j)) & 0x7F`). -/
def lowSeptets (n B : Nat) : List Septet := (List.range n).map fun j => BitVec.ofNat 7 (B >>> (7 * j))

theorem unpackedForm_eq_lowSeptets (os : List Octet) :
    unpackedForm os = lowSeptets (unpackedLength os.length) (bitString os) := rfl

theorem lowSeptets_succ (n B : Nat) : lowSeptets (n + 1) B = BitVec.ofNat 7 B :: lowSeptets n (B >>> 7) := by
  simp [lowSeptets, List.range_succ_eq_map, Nat.mul_succ, Nat.add_comm _ 7, Nat.shiftRight_add, Function.comp_def]

/-- The first septet is in the low part of a bit string alone, whatever stands above bit 7. -/
theorem lowSeptets_succ_add (n t c : Nat) :
    lowSeptets (n + 1) (t + 2 ^ 7 * c) = BitVec.ofNat 7 t :: lowSeptets n (t >>> 7 + c) := by
  have hlow : BitVec.ofNat 7 (t + 2 ^ 7 * c) = BitVec.ofNat 7 t := by
    apply BitVec.eq_of_toNat_eq
    simp
  rw [lowSeptets_succ, hlow, Nat.shiftRight_eq_div_pow, Nat.add_mul_div_left _ _ (by decide), Nat.shiftRight_eq_div_pow]

/-- How many septets the source's loop emits for `m` more octets with `k` bits pending: the whole ones, but for the one a last
octet completes on a wrap. -/
def lengthToCome (k m : Nat) : Nat := (k + 8 * m) / 7 - if m ≠ 0 ∧ (k + m) % 7 = 0 then 1 else 0

theorem lengthToCome_one {k : Nat} (hk : k ≤ 6) : lengthToCome k 1 = 1 := by
  unfold lengthToCome
  split <;> omega

theorem lengthToCome_wrap {m : Nat} (hm : m ≠ 0) : lengthToCome 6 (m + 1) = lengthToCome 0 m + 2 := by
  unfold lengthToCome
  split_ifs <;> omega

theorem lengthToCome_succ {k : Nat} (hk : k < 6) (m : Nat) : lengthToCome k (m + 1) = lengthToCome (k + 1) m + 1 := by
  unfold lengthToCome
  split_ifs <;> omega

theorem lengthToCome_zero (m : Nat) : lengthToCome 0 m = unpackedLength m := by
  unfold lengthToCome unpackedLength
  split_ifs <;> omega

/-- The pending bits, then an octet, then the rest: the octet completes the septet at the bottom. -/
theorem pending_add_bitString_cons {a k : Nat} (ha : a < 2 ^ k) (o : Octet) (os : List Octet) :
    a + 2 ^ k * bitString (o :: os) = (a ||| (o.toNat <<< k)) + 2 ^ 7 * (2 ^ (k + 1) * bitString os) := by
  have hor : a ||| (o.toNat <<< k) = a + 2 ^ k * o.toNat := by
    rw [Nat.shiftLeft_eq, Nat.or_comm, Nat.mul_comm, ← Nat.two_pow_add_eq_or_of_lt ha, Nat.add_comm]
  rw [bitString_cons, hor, Nat.pow_succ]
  ring

/-- What an octet leaves over is one bit longer than what was pending. -/
theorem or_shiftLeft_shiftRight_lt {a k : Nat} (ha : a < 2 ^ k) (o : Octet) :
    (a ||| (o.toNat <<< k)) >>> 7 < 2 ^ (k + 1) := by
  have hlt : a ||| (o.toNat <<< k) < 2 ^ (8 + k) :=
    Nat.or_lt_two_pow (ha.trans_le (Nat.pow_le_pow_right (by decide) (by omega))) (Nat.shiftLeft_lt o.isLt)
  rw [Nat.shiftRight_eq_div_pow]
  apply Nat.div_lt_of_lt_mul
  rwa [← Nat.pow_add, show 7 + (k + 1) = 8 + k by omega]

/-- With `k` bits pending the source's loop emits the septets of the pending bits and the octets' bits above them. -/
theorem sourceUnpackFrom_eq_lowSeptets {a k : Nat} (ha : a < 2 ^ k) (hk : k ≤ 6) (os : List Octet) :
    sourceUnpackFrom a k os = lowSeptets (lengthToCome k os.length) (a + 2 ^ k * bitString os) := by
  induction os generalizing a k with
  | nil => simp [sourceUnpackFrom, lengthToCome, lowSeptets, Nat.div_eq_of_lt (show k < 7 by omega)]
  | cons o os ih =>
    have hrest := or_shiftLeft_shiftRight_lt ha o
    rw [pending_add_bitString_cons ha, List.length_cons]
    by_cases hos : os = []
    · rw [hos, sourceUnpackFrom_singleton, List.length_nil, Nat.zero_add, lengthToCome_one hk, lowSeptets_succ_add]
      rfl
    · obtain rfl | hlt : k = 6 ∨ k < 6 := by omega
      · have hzero : ((a ||| (o.toNat <<< 6)) >>> 7) >>> 7 = 0 := by
          rw [Nat.shiftRight_eq_div_pow _ 7]
          exact Nat.div_eq_of_lt hrest
        rw [sourceUnpackFrom_wrap (by decide) hos, ih (by decide) (by decide),
          lengthToCome_wrap (by simpa using hos), lowSeptets_succ_add, lowSeptets_succ_add, hzero]
        simp
      · rw [sourceUnpackFrom_no_wrap (by omega), Nat.mod_eq_of_lt (by omega), ih hrest (by omega),
          lengthToCome_succ hlt, lowSeptets_succ_add]

theorem sourceUnpack_eq_unpackedForm (os : List Octet) : sourceUnpack os = unpackedForm os := by
  rw [sourceUnpack, sourceUnpackFrom_eq_lowSeptets (by decide) (by decide), lengthToCome_zero,
    unpackedForm_eq_lowSeptets, Nat.pow_zero, Nat.one_mul, Nat.zero_add]

theorem unpackedForm_length (os : List Octet) : (unpackedForm os).length = unpackedLength os.length := by
  simp [unpackedForm]

/-- Settles O33: the unpacker against the source's loop, the loop against the equation, and the equation's length. -/
theorem unpackCallEmitsTheSourceLoopsSeptets : Obligations.UnpackCallEmitsTheSourceLoopsSeptets := by
  intro os s hidle
  refine ⟨execAll_unpackOct hidle os, sourceUnpack_eq_unpackedForm os, ?_⟩
  rw [sourceUnpack_eq_unpackedForm, unpackedForm_length]
  rfl

end Sys2Proof.Machine
end

section
/-! PROOFS. The fused family: `ENCP`, `UPD` and `UPDE` over the bodies of the unfused commands (spec 43_fused.md rules R160,
R161, R164 and R167): obligations O15, O16, O17 and O18. -/

namespace Sys2Proof

/-- No septet reaches the decoder as a byte of 128 or more. -/
theorem byteOfSeptet_toNat_lt (v : Septet) : (byteOfSeptet v).toNat < 0x80 := by
  rw [byteOfSeptet, BitVec.toNat_setWidth_of_le (by decide)]
  exact v.isLt

end Sys2Proof

namespace Sys2Proof.Machine

open Sys2Proof.Laws

/-! ### The loops of the fused commands -/

/-- One turn of a fused command's loop: run a body on a septet and append what it returns to a local list. Reducible,
so that the loops the statements write out are seen to be folds of it. -/
abbrev appendBody {α : Type} (body : Octet → State → List α × State) (a : List α × State) (x : Septet) : List α × State :=
  let p := body (x.setWidth 8) a.2
  (a.1 ++ p.1, p.2)

/-- A function that recurses over the septets with a body, as `packAll` and `decAll` do, computes the loop over that body. -/
theorem foldl_appendBody {α : Type} {body : Octet → State → List α × State} {all : List Septet → State → List α × State}
    (hnil : ∀ s, all [] s = ([], s))
    (hcons : ∀ x xs s, all (x :: xs) s = ((body (byteOfSeptet x) s).1 ++ (all xs (body (byteOfSeptet x) s).2).1,
      (all xs (body (byteOfSeptet x) s).2).2))
    (xs : List Septet) (ys : List α) (s : State) :
    xs.foldl (appendBody body) (ys, s) = (ys ++ (all xs s).1, (all xs s).2) := by
  induction xs generalizing ys s with
  | nil => simp [hnil]
  | cons x xs ih => simp [appendBody, ih, hcons, byteOfSeptet]

theorem foldl_packBody (xs : List Septet) (s : State) : xs.foldl (appendBody packBody) ([], s) = packAll xs s :=
  foldl_appendBody (all := packAll) (fun _ => rfl) (fun _ _ _ => rfl) xs [] s

theorem foldl_decBody (xs : List Septet) (s : State) : xs.foldl (appendBody decBody) ([], s) = decAll xs s :=
  foldl_appendBody (all := decAll) (fun _ => rfl) (fun _ _ _ => rfl) xs [] s

/-! ### The bits in the packer -/

/-- Each septet brings seven bits in and each octet takes eight out. -/
theorem packBody_bits (b : Octet) (s : State) :
    8 * (packBody b s).1.length + (packBody b s).2.pkFill.toNat = s.pkFill.toNat + 7 := by
  by_cases h : s.pkFill = 0#3
  · simp [packBody_empty h, h]
  · have hpos : s.pkFill.toNat ≠ 0 := mt (toNat_eq_zero_iff _).mp h
    simp only [packBody_filled h, List.length_singleton, State.setPack_pkFill, nextFill_toNat]
    omega

theorem packAll_bits (xs : List Septet) (s : State) :
    8 * (packAll xs s).1.length + (packAll xs s).2.pkFill.toNat = s.pkFill.toNat + 7 * xs.length := by
  induction xs generalizing s with
  | nil => simp [packAll]
  | cons x xs ih =>
    have hx := packBody_bits (byteOfSeptet x) s
    have hxs := ih (packBody (byteOfSeptet x) s).2
    simp only [packAll, List.length_append, List.length_cons]
    omega

theorem packAll_length_one {xs : List Septet} (h : xs.length = 1) (s : State) :
    (packAll xs s).1.length = if s.pkFill.toNat = 0 then 0 else 1 := by
  have hbits := packAll_bits xs s
  split <;> omega

theorem packAll_length_two {xs : List Septet} (h : xs.length = 2) (s : State) :
    (packAll xs s).1.length = if s.pkFill.toNat ≤ 1 then 1 else 2 := by
  have hbits := packAll_bits xs s
  split <;> omega

/-! ### The meanings of the fused family

The bodies leave the output buffer alone, so a command's tokens come right after those of the state it started from. -/

theorem emit_of_outBuf_eq {s t : State} (h : t.outBuf = s.outBuf) (ts : List Token) :
    t.emit ts = { t with outBuf := s.outBuf ++ ts } := by
  rw [State.emit, h]

@[simp] theorem packBody_outBuf (b : Octet) (s : State) : (packBody b s).2.outBuf = s.outBuf := by
  rw [packBody_frame, State.setPack_outBuf]

@[simp] theorem packAll_outBuf (xs : List Septet) (s : State) : (packAll xs s).2.outBuf = s.outBuf := by
  rw [packAll_frame, State.setPack_outBuf]

@[simp] theorem unpackBody_outBuf (b : Octet) (s : State) : (unpackBody b s).2.outBuf = s.outBuf := by
  rw [unpackBody_frame, State.setUnpack_outBuf]

@[simp] theorem decBody_outBuf (b : Octet) (s : State) : (decBody b s).2.outBuf = s.outBuf := by
  rw [decBody_frame, State.setDec_outBuf]

@[simp] theorem decAll_outBuf (xs : List Septet) (s : State) : (decAll xs s).2.outBuf = s.outBuf := by
  rw [decAll_frame, State.setDec_outBuf]

/-- Unpacking an octet and decoding its septets writes the UNPACK and DECODE registers alone. -/
theorem decAll_unpackBody_frame (b : Octet) (s : State) :
    (decAll (unpackBody b s).1 (unpackBody b s).2).2
      = (s.setUnpack (unpackBody b s).2.upAcc (unpackBody b s).2.upShift (unpackBody b s).2.upPend).setDec
          (decAll (unpackBody b s).1 (unpackBody b s).2).2.decEsc := by
  rw [← unpackBody_frame]
  exact decAll_frame _ _

theorem exec_encp (c : CharVal) (s : State) :
    exec (.encp c) s = .next { (packAll (encSeq s.cfg c) s).2 with
      outBuf := s.outBuf ++ (packAll (encSeq s.cfg c) s).1.map .oct } :=
  congrArg _ (emit_of_outBuf_eq (packAll_outBuf _ s) _)

theorem exec_upd (b : Octet) (s : State) :
    exec (.upd b) s = .next { (decAll (unpackBody b s).1 (unpackBody b s).2).2 with
      outBuf := s.outBuf ++ (decAll (unpackBody b s).1 (unpackBody b s).2).1.map .char } :=
  congrArg _ (emit_of_outBuf_eq ((decAll_outBuf _ _).trans (unpackBody_outBuf b s)) _)

theorem exec_upde (s : State) : exec .upde s = .next ((s.setUnpack 0#7 0#3 false).setDec .normal) := rfl

/-! ### The obligations -/

/-- Settles O15, command by command: each body's frame and length, the two loops, and `UPDE` as `DECE` after `UPE`. -/
theorem bodiesAreThoseOfTheUnfusedCommands : Obligations.BodiesAreThoseOfTheUnfusedCommands := by
  refine ⟨fun c s => ⟨exec_enc c s, encSeq_length s.cfg c⟩, fun b s => ?_, fun b s => ?_, fun b s => ?_, fun c s => ?_,
    fun b s => ?_, fun s => ⟨_, exec_upe s, rfl⟩⟩
  · refine ⟨_, _, packBody_frame b s, congrArg _ (emit_of_outBuf_eq (packBody_outBuf b s) _), ?_⟩
    rw [packBody_length]
    split <;> decide
  · refine ⟨_, _, _, unpackBody_frame b s, congrArg _ (emit_of_outBuf_eq (unpackBody_outBuf b s) _), ?_⟩
    rw [unpackBody_length]
    split <;> decide
  · exact ⟨_, decBody_frame b s, congrArg _ (emit_of_outBuf_eq (decBody_outBuf b s) _), decBody_length b s⟩
  · rw [foldl_packBody]
    exact exec_encp c s
  · rw [foldl_decBody]
    exact exec_upd b s

/-- Settles O16: a `CHAR` form, and `ENCP` as the loop, whose octets are counted by the bits that come in and go out. -/
theorem encpPacksTheSeptetsOfTheCharacter : Obligations.EncpPacksTheSeptetsOfTheCharacter := by
  refine ⟨fun w hop => decode_of_charForm (by simp [decodeOp, hop]), fun c s => ?_⟩
  rw [foldl_packBody]
  refine ⟨exec_encp c s, ⟨_, _, packAll_frame _ s⟩, fun h => packAll_length_one h s, fun h => packAll_length_two h s,
    fun hbasic hext => ?_⟩
  simp [encSeq, hbasic, hext, spSeptet]

/-- Settles O17: a `BYTE` form, and `UPD` as the loop over the one or two septets of the octet. -/
theorem updDecodesTheSeptetsOfTheOctet : Obligations.UpdDecodesTheSeptetsOfTheOctet := by
  refine ⟨fun w hop => decode_of_byteForm (by simp [decodeOp, hop]), fun b s => ?_⟩
  simp only [foldl_decBody]
  exact ⟨exec_upd b s, ⟨_, _, _, _, decAll_unpackBody_frame b s⟩, fun x _ => byteOfSeptet_toNat_lt x,
    (decAll_length _ _).trans (unpackBody_length_le b s)⟩

/-- Settles O18: a `NONE` form, whose one legal word is 0xB. -/
theorem updeEndsThePackedDecodeCall : Obligations.UpdeEndsThePackedDecodeCall := by
  refine ⟨fun w hop => ?_, exec_upde⟩
  have hB : commandWord 0xB#4 0#24 = 0xB#32 := by decide
  rw [← hB]
  exact decode_of_noneForm hop (by simp [decodeOp, hop])

end Sys2Proof.Machine
end

section
/-! PROOFS. The control family: `NOP` and `CLR` (spec 44_control.md rules R180 and R182): obligations O6 and O7. -/

namespace Sys2Proof.Machine

open Sys2Proof.Laws

theorem exec_nop (s : State) : exec .nop s = .next s := rfl

theorem exec_clr (s : State) : exec .clr s = .next s.clearRegisters := rfl

/-- Settles O6: a `NONE` form, whose one legal word is 0. -/
theorem nopDoesNothing : Obligations.NopDoesNothing := by
  refine ⟨fun w hop => ?_, exec_nop⟩
  have h0 : commandWord 0x0#4 0#24 = 0#32 := by decide
  rw [← h0]
  exact decode_of_noneForm hop (by simp [decodeOp, hop])

/-- Settles O7: a `NONE` form, whose one legal word is 1, the registers `CLR` writes, and what every command keeps of
`STATUS`, `ERRCMD` and the output buffer. -/
theorem clrReturnsEveryRegisterToReset : Obligations.ClrReturnsEveryRegisterToReset := by
  refine ⟨fun w hop => ?_, exec_clr, fun i s t hi h => ?_, fun i s t h => ?_⟩
  · have h1 : commandWord 0x1#4 0#24 = 1#32 := by decide
    rw [← h1]
    exact decode_of_noneForm hop (by simp [decodeOp, hop])
  · obtain ⟨t', ht, hkept⟩ := exec_keeps_status_errcmd hi s
    obtain rfl := Host.Outcome.next.inj (ht.symm.trans h)
    exact hkept
  · obtain ⟨t', ts, ht, -, hout⟩ := exec_appends_at_most_two i s
    obtain rfl := Host.Outcome.next.inj (ht.symm.trans h)
    exact ⟨ts, hout⟩

end Sys2Proof.Machine
end

section
/-! PROOFS. The exception `IllegalCommand` and how long it stays recorded (spec 60_exceptions.md rules R201 and R206):
obligations O42 and O43. -/

namespace Sys2Proof.Laws

/-! ### The `OP` of a decoded word -/

/-- A decoded word has the `OP` of its command, `OP` by `OP` (30_encoding.md rule R73). -/
theorem opField_of_decode {w : Word} {i : Instr} (h : decode w = .ok i) : opField w = i.opcode := by
  have hr : rsvField w = 0#4 := by
    by_contra hr
    simp [decode_of_rsv hr] at h
  rw [decode_of_rsv_zero hr] at h
  rcases op_cases (opField w) with ho | ho | ho | ho | ho | ho | ho | ho | ho | ho | ho | ho | ho | ho | ho | ho <;>
    simp [decodeOp, decodeNone, decodeChar, decodeByte, ho, ite_eq_iff] at h <;>
    simp [ho, ← h, Instr.opcode]

/-- `CLR` has the one word 1 (44_control.md rule R182). -/
theorem eq_encode_clr_of_decode {w : Word} (h : decode w = .ok .clr) : w = encode .clr := by
  obtain ⟨hword, -⟩ := Machine.clrReturnsEveryRegisterToReset
  have hw := hword w (opField_of_decode h)
  split at hw
  · assumption
  · exact absurd h (hw .clr)

end Sys2Proof.Laws

namespace Sys2Proof.Machine

open Sys2Proof.Laws

/-! ### What leaves a recorded error alone -/

/-- Only the first illegal word is recorded. -/
theorem raiseIllegal_errcmd_of_ill {s : State} (h : statusIll s.status = true) (w : Word) :
    (raiseIllegal w s).errcmd = s.errcmd := if_pos h

theorem readToken_errcmd (s : State) : s.readToken.errcmd = s.errcmd := by
  unfold State.readToken; split <;> rfl

/-- Every act of the host but reset leaves `ERRCMD` alone. -/
theorem hostAct_errcmd {a : HostAct} (ha : a ≠ .assertReset) (s : State) : (hostAct a s).errcmd = s.errcmd := by
  cases a with
  | present | readSideband => rfl
  | readToken => exact readToken_errcmd s
  | assertReset => exact absurd rfl ha

/-! ### The obligations -/

/-- Settles O43, by what a step can do: a command (`CLR` or another), an illegal word after the first, an act of the host
(reset or another), or nothing. -/
theorem recordedErrorStaysUntilClrOrReset : Obligations.RecordedErrorStaysUntilClrOrReset := by
  intro s t h hill
  obtain ⟨w, ws, i, hport, hroom, hd, hs⟩ | ⟨w, ws, e, -, -, -, hs⟩ | ⟨hblocked, a, as, hacts, hs⟩ | ⟨-, -, hs⟩ :=
    step_cases s
  · by_cases hi : i = .clr
    · subst hi
      exact .inr (.inl ⟨ws, eq_encode_clr_of_decode hd ▸ hport, hroom⟩)
    · obtain ⟨t', ht, hstatus, herrcmd⟩ := exec_keeps_status_errcmd hi (s.setCmdPort ws)
      obtain rfl := Host.Outcome.next.inj (ht.symm.trans (hs.symm.trans h))
      exact .inl ⟨hstatus ▸ hill, herrcmd⟩
  all_goals obtain rfl := Host.Outcome.next.inj (hs.symm.trans h)
  · exact .inl ⟨statusIll_setStatusIll s.status, raiseIllegal_errcmd_of_ill (s := s.setCmdPort ws) hill w⟩
  · by_cases ha : a = .assertReset
    · subst ha
      exact .inr (.inr ⟨as, hacts, hblocked⟩)
    · exact .inl ⟨by simpa [hostAct_status, ha] using hill, hostAct_errcmd ha (s.setHostActs as)⟩
  · exact .inl ⟨hill, rfl⟩

/-- Settles O42: the decoder refuses the word, so the step is `raiseIllegal`, which leaves the room on the output port as it
was for the next word. -/
theorem illegalCommandSetsStatusAndErrcmdOnly : Obligations.IllegalCommandSetsStatusAndErrcmdOnly := by
  intro s w ws hport hroom hw
  obtain ⟨e, he⟩ := exists_decode_error_of_not_legalWord hw
  refine ⟨raiseIllegal w (s.setCmdPort ws), ?_, ?_, readStatus_setStatusIll s.status, fun v vs i hws hv => ?_⟩
  · rw [step_accept hport hroom, executeWord, he]
  · simp only [sidebandValue, readStatus_ill]
    rfl
  · have hroom' : (raiseIllegal w (s.setCmdPort ws)).hasRoom = true := hroom
    exact (step_accept hws hroom').trans (executeWord_of_command hv _)

end Sys2Proof.Machine
end

section
/-! PROOFS. The reset input between commands (spec 70_reset_and_hazards.md rule R220): obligation O47. -/

namespace Sys2Proof.Machine

/-- The step with no word that can be accepted and an act of the host left. -/
theorem step_hostAct {s : State} {a : HostAct} {as : List HostAct} (hblocked : s.cmdPort = [] ∨ s.hasRoom = false)
    (hacts : s.hostActs = a :: as) : step s = .next (hostAct a (s.setHostActs as)) := by
  rw [step_between hblocked, betweenCommands, hacts]

/-- Settles O47: with no word to accept the step is the reset input, which writes each register as 0 and the output buffer as
empty, and neither the parameters nor what the host was handed. -/
theorem resetInputClearsRegistersAndOutput : Obligations.ResetInputClearsRegistersAndOutput := by
  intro s as hacts hblocked
  have hstep : step s = .next (s.setHostActs as).resetInput := step_hostAct hblocked hacts
  exact ⟨_, hstep, rfl, rfl, rfl, rfl, rfl, rfl, rfl, rfl, rfl, rfl, rfl⟩

end Sys2Proof.Machine
end

section
/-! PROOFS. The encoder and the decoder are each other's inverse (spec 30_encoding.md rules R71 to R74 and R79): obligations
O1, O2 and O3. -/

namespace Sys2Proof.Laws

/-! ### The word of a command -/

/-- The word of a command decodes to the command, by its operand form (30_encoding.md rule R72). -/
theorem decode_encode (i : Instr) : decode (encode i) = .ok i := by
  refine (decode_of_rsv_zero (rsvField_commandWord i.opcode i.data)).trans ?_
  cases i with
  | nop | clr | pkf | upe | dece | upde => decide
  | enc c | encp c =>
    simp [decodeOp, Instr.opcode, Instr.data, opField_commandWord, decodeChar, charOperand,
      dataField_commandWord]
  | pks b | upo b | dec b | upd b =>
    simp [decodeOp, Instr.opcode, Instr.data, opField_commandWord, decodeByte, dataHiField_commandWord,
      byteOperand_commandWord]

/-! ### What a decoded word holds -/

theorem rsvField_of_decode {w : Word} {i : Instr} (h : decode w = .ok i) : rsvField w = 0#4 := by
  by_contra hr
  simp [decode_of_rsv hr] at h

theorem decodeNone_eq_ok_iff {w : Word} {i j : Instr} : decodeNone w i = .ok j ↔ dataField w = 0#24 ∧ i = j := by
  simp [decodeNone, ite_eq_iff]

theorem decodeByte_eq_ok_iff {w : Word} {f : Octet → Instr} {j : Instr} :
    decodeByte w f = .ok j ↔ dataHiField w = 0#16 ∧ f (byteOperand w) = j := by
  simp [decodeByte, ite_eq_iff]

/-- A decoded word has the `DATA` of its command, row by row of the opcode map (30_encoding.md rule R73). -/
theorem dataField_of_decode {w : Word} {i : Instr} (h : decode w = .ok i) : dataField w = i.data := by
  rw [decode_of_rsv_zero (rsvField_of_decode h), decodeOp] at h
  split at h
  -- the rows of each operand form, then the reserved values
  case h_1 | h_2 | h_6 | h_8 | h_10 | h_12 =>
    obtain ⟨hdata, rfl⟩ := decodeNone_eq_ok_iff.mp h
    exact hdata
  case h_3 | h_4 =>
    obtain rfl := Except.ok.inj h
    rfl
  case h_5 | h_7 | h_9 | h_11 =>
    obtain ⟨hhi, rfl⟩ := decodeByte_eq_ok_iff.mp h
    exact dataField_of_dataHi_zero hhi
  case h_13 => cases h

/-! ### The obligations -/

/-- Settles O2: the fields of a command's word are its `OP` and its `DATA`, from which the decoder reads the command. -/
theorem decodeOfEncodeIsTheCommand : Obligations.DecodeOfEncodeIsTheCommand := decode_encode

/-- Settles O3: the `OP` and the `DATA` of a decoded word are its command's, and its `RSV` is 0. -/
theorem encodeOfDecodeIsTheWord : Obligations.EncodeOfDecodeIsTheWord := by
  intro w i h
  rw [eq_commandWord (rsvField_of_decode h), opField_of_decode h, dataField_of_decode h]
  rfl

/-- Settles O1: the decoder on each written-out word, and the clause of rule R74 each illegal one breaks. -/
theorem writtenWordsDecode : Obligations.WrittenWordsDecode := by
  refine ⟨by decide, by decide, by decide, by decide, by decide, by decide, by decide, by decide, by decide, by decide,
    by decide, by decide, by decide, fun w hw i hi => ?_⟩
  have hillegal : legalWord w = false := by
    simp only [List.mem_cons, List.not_mem_nil, or_false] at hw
    obtain rfl | rfl | rfl | rfl := hw <;> decide
  exact Bool.false_ne_true (hillegal.symm.trans ((legalWord_iff_exists_decode_ok w).mpr ⟨i, hi⟩))

end Sys2Proof.Laws
end

section
/-! PROOFS. What each command depends on and what it writes, and that every step keeps the invariant (spec 10_state.md rules
R22 to R31; 70_reset_and_hazards.md rules R225 and R226): obligations O19, O48, O49, O56 and O57. -/

namespace Sys2Proof.Machine

open Sys2Proof.Laws

/-! ### The commands with their frame

Each engine's command as the writes it makes to the state it started from. -/

theorem exec_pks_frame (b : Octet) (s : State) :
    exec (.pks b) s = .next ((s.setPack (packBody b s).2.pkCarry (packBody b s).2.pkFill).emit
      ((packBody b s).1.map .oct)) := by
  rw [← packBody_frame]
  rfl

theorem exec_encp_frame (c : CharVal) (s : State) :
    exec (.encp c) s = .next ((s.setPack (packAll (encSeq s.cfg c) s).2.pkCarry
      (packAll (encSeq s.cfg c) s).2.pkFill).emit ((packAll (encSeq s.cfg c) s).1.map .oct)) := by
  rw [← packAll_frame]
  rfl

theorem exec_upo_frame (b : Octet) (s : State) :
    exec (.upo b) s = .next ((s.setUnpack (unpackBody b s).2.upAcc (unpackBody b s).2.upShift
      (unpackBody b s).2.upPend).emit ((unpackBody b s).1.map .sept)) := by
  rw [← unpackBody_frame]
  rfl

theorem exec_dec_frame (b : Octet) (s : State) :
    exec (.dec b) s = .next ((s.setDec (decBody b s).2.decEsc).emit ((decBody b s).1.map .char)) := by
  rw [← decBody_frame]
  rfl

theorem exec_upd_frame (b : Octet) (s : State) :
    exec (.upd b) s = .next (((s.setUnpack (unpackBody b s).2.upAcc (unpackBody b s).2.upShift
      (unpackBody b s).2.upPend).setDec (decAll (unpackBody b s).1 (unpackBody b s).2).2.decEsc).emit
      ((decAll (unpackBody b s).1 (unpackBody b s).2).1.map .char)) := by
  rw [← decAll_unpackBody_frame]
  rfl

/-- Settles O19, command by command, from the writes each makes. -/
theorem registersACommandMayWrite : Obligations.RegistersACommandMayWrite := by
  intro i s t h
  cases i with
  | nop | enc c | pkf =>
    obtain rfl := Host.Outcome.next.inj h
    simp
  | clr | upe | dece | upde =>
    obtain rfl := Host.Outcome.next.inj h
    simp [State.clearRegisters, unpackEnd, decEnd]
  | encp c =>
    obtain rfl := Host.Outcome.next.inj ((exec_encp_frame c s).symm.trans h)
    simp
  | pks b =>
    obtain rfl := Host.Outcome.next.inj ((exec_pks_frame b s).symm.trans h)
    simp
  | upo b =>
    obtain rfl := Host.Outcome.next.inj ((exec_upo_frame b s).symm.trans h)
    simp
  | dec b =>
    obtain rfl := Host.Outcome.next.inj ((exec_dec_frame b s).symm.trans h)
    simp
  | upd b =>
    obtain rfl := Host.Outcome.next.inj ((exec_upd_frame b s).symm.trans h)
    simp

/-! ### Independence of the engines -/

theorem packTail_congr {s s' : State} (hc : s.pkCarry = s'.pkCarry) (hf : s.pkFill = s'.pkFill) :
    packTail s = packTail s' := by
  rw [packTail, packTail, hc, hf]

/-- The loop of `UPD` sees the UNPACK and DECODE registers and the ROM alone. -/
theorem decAll_unpackBody_congr {b : Octet} {s s' : State} (ha : s.upAcc = s'.upAcc) (hk : s.upShift = s'.upShift)
    (hp : s.upPend = s'.upPend) (hd : s.decEsc = s'.decEsc) (hc : s.cfg = s'.cfg) :
    (decAll (unpackBody b s).1 (unpackBody b s).2).1 = (decAll (unpackBody b s').1 (unpackBody b s').2).1
    ∧ (decAll (unpackBody b s).1 (unpackBody b s).2).2.decEsc
      = (decAll (unpackBody b s').1 (unpackBody b s').2).2.decEsc := by
  obtain ⟨hseptets, -, -, -⟩ := unpackBody_congr (b := b) ha hk hp
  rw [hseptets]
  apply decAll_congr
  · rw [unpackBody_frame, unpackBody_frame (s := s')]
    exact hd
  · rw [unpackBody_frame, unpackBody_frame (s := s')]
    exact hc

/-- Settles O49, engine by engine: what each body sees, and the writes the command makes. -/
theorem enginesAreIndependent : Obligations.EnginesAreIndependent := by
  refine ⟨?pack, fun c s s' hc hf hcfg => ?encp, ?unpack, ?decode, ?upd⟩
  case pack =>
    rintro i s s' (rfl | ⟨b, rfl⟩) hc hf
    · refine ⟨_, _, _, exec_pkf s, ?_⟩
      rw [packTail_congr hc hf]
      exact exec_pkf s'
    · obtain ⟨hout, hcarry, hfill⟩ := packBody_congr (b := b) hc hf
      refine ⟨_, _, _, exec_pks_frame b s, ?_⟩
      rw [hout, hcarry, hfill]
      exact exec_pks_frame b s'
  case encp =>
    obtain ⟨hout, hcarry, hfill⟩ := packAll_congr (vs := encSeq s.cfg c) hc hf
    refine ⟨_, _, _, exec_encp_frame c s, ?_⟩
    rw [hout, hcarry, hfill, hcfg]
    exact exec_encp_frame c s'
  case unpack =>
    rintro i s s' (rfl | ⟨b, rfl⟩) ha hk hp
    · exact ⟨[], _, _, _, by rw [List.append_nil]; exact exec_upe s, by rw [List.append_nil]; exact exec_upe s'⟩
    · obtain ⟨hout, hacc, hshift, hpend⟩ := unpackBody_congr (b := b) ha hk hp
      refine ⟨_, _, _, _, exec_upo_frame b s, ?_⟩
      rw [hout, hacc, hshift, hpend]
      exact exec_upo_frame b s'
  case decode =>
    rintro i s s' (rfl | ⟨b, rfl⟩) hd hcfg
    · exact ⟨[], _, by rw [List.append_nil]; exact exec_dece s, by rw [List.append_nil]; exact exec_dece s'⟩
    · obtain ⟨hout, hdec⟩ := decBody_congr (b := b) hd hcfg
      refine ⟨_, _, exec_dec_frame b s, ?_⟩
      rw [hout, hdec]
      exact exec_dec_frame b s'
  case upd =>
    rintro i s s' (rfl | ⟨b, rfl⟩) ha hk hp hd hcfg
    · exact ⟨[], _, _, _, _, by rw [List.append_nil]; exact exec_upde s, by rw [List.append_nil]; exact exec_upde s'⟩
    · obtain ⟨-, hacc, hshift, hpend⟩ := unpackBody_congr (b := b) ha hk hp
      obtain ⟨hout, hdec⟩ := decAll_unpackBody_congr (b := b) ha hk hp hd hcfg
      refine ⟨_, _, _, _, _, exec_upd_frame b s, ?_⟩
      rw [hout, hdec, hacc, hshift, hpend]
      exact exec_upd_frame b s'

/-- Settles O48: the registers each idle predicate names are among those the command zeroes. -/
theorem idleAfterResetClrAndEndCommands : Obligations.IdleAfterResetClrAndEndCommands :=
  ⟨⟨rfl, rfl, rfl⟩, fun s => ⟨⟨_, exec_clr s, rfl, rfl, rfl⟩, ⟨_, exec_pkf s, rfl⟩, ⟨_, exec_upe s, rfl, rfl⟩,
    ⟨_, exec_dece s, rfl⟩, ⟨_, exec_upde s, rfl, rfl⟩⟩⟩

/-! ### The bounds of the engines' registers -/

/-- The bound of 10_state.md rule R23. -/
def State.PackBounded (s : State) : Prop := s.pkCarry.toNat < 2 ^ s.pkFill.toNat

/-- The bounds of 10_state.md rule R24. -/
def State.UnpackBounded (s : State) : Prop :=
  s.upShift.toNat ≤ 6 ∧ (s.upPend = true → s.upShift = 0#3)
    ∧ (s.upPend = false → s.upAcc.toNat < 2 ^ s.upShift.toNat)

/-- What a septet leaves over fits in the bits of the next fill. -/
theorem packRest_lt {f : BitVec 3} (hf : f ≠ 0#3) (v : Septet) : (packRest v f).toNat < 2 ^ (nextFill f).toNat := by
  have hpos : f.toNat ≠ 0 := mt (toNat_eq_zero_iff f).mp hf
  rw [packRest, BitVec.toNat_ushiftRight, Nat.shiftRight_eq_div_pow, nextFill_toNat]
  apply Nat.div_lt_of_lt_mul
  rw [← Nat.pow_add, show 8 - f.toNat + (f.toNat + 7) % 8 = 7 by omega]
  exact v.isLt

/-- After a septet the packer is within its bound, wherever it stood before. -/
theorem packBody_packBounded (b : Octet) (s : State) : (packBody b s).2.PackBounded := by
  by_cases h : s.pkFill = 0#3
  · rw [packBody_empty h]
    exact (septetOf b).isLt
  · rw [packBody_filled h]
    exact packRest_lt h (septetOf b)

theorem packAll_packBounded {s : State} (h : s.PackBounded) (vs : List Septet) : (packAll vs s).2.PackBounded := by
  induction vs generalizing s with
  | nil => exact h
  | cons v vs ih => exact ih (packBody_packBounded (byteOfSeptet v) s)

/-- What `UPO` starts its window from has no bit at or above `UP_SHIFT`: it is the accumulator, or 0 where that is held. -/
theorem releaseHeld_upAcc_lt {s : State} (h : s.UnpackBounded) :
    (releaseHeld s).2.upAcc.toNat < 2 ^ s.upShift.toNat := by
  obtain ⟨-, -, hacc⟩ := h
  cases hp : s.upPend
  · rw [releaseHeld_of_not_pend hp]
    exact hacc hp
  · rw [releaseHeld_of_pend hp]
    exact Nat.two_pow_pos _

theorem unpackBody_unpackBounded {s : State} (h : s.UnpackBounded) (b : Octet) : (unpackBody b s).2.UnpackBounded := by
  have hk : s.upShift.toNat ≤ 6 := h.1
  obtain ⟨-, hrest⟩ := unpackWindow_split (b := b) (releaseHeld_upAcc_lt h) hk
  refine ⟨unpackBody_upShift_le b s, ?_, ?_⟩
  · rw [unpackBody_eq]
    exact of_decide_eq_true
  · rw [unpackBody_eq]
    intro hp
    have hwrap : (s.upShift.toNat + 1) % 7 ≠ 0 := mt (nextShift_eq_zero_iff _).mpr (of_decide_eq_false hp)
    rwa [State.setUnpack_upAcc, State.setUnpack_upShift, nextShift_toNat,
      show (s.upShift.toNat + 1) % 7 = s.upShift.toNat + 1 by omega]

theorem exec_keeps_packBounded {i : Instr} {s t : State} (h : exec i s = .next t) (hs : s.PackBounded) :
    t.PackBounded := by
  cases i with
  | clr | pkf =>
    obtain rfl := Host.Outcome.next.inj h
    exact Nat.one_pos
  | pks b =>
    obtain rfl := Host.Outcome.next.inj h
    exact packBody_packBounded b s
  | encp c =>
    obtain rfl := Host.Outcome.next.inj h
    exact packAll_packBounded hs (encSeq s.cfg c)
  | nop | enc | upo | upe | dec | dece | upd | upde =>
    obtain ⟨-, -, hkept, -⟩ := registersACommandMayWrite _ s t h
    obtain ⟨hcarry, hfill⟩ := hkept (by simp) (by simp) (by simp) (by simp)
    rwa [State.PackBounded, hcarry, hfill]

theorem exec_keeps_unpackBounded {i : Instr} {s t : State} (h : exec i s = .next t) (hs : s.UnpackBounded) :
    t.UnpackBounded := by
  cases i with
  | clr | upe | upde =>
    obtain rfl := Host.Outcome.next.inj h
    exact ⟨Nat.zero_le 6, fun _ => rfl, fun _ => Nat.one_pos⟩
  | upo b =>
    obtain rfl := Host.Outcome.next.inj h
    exact unpackBody_unpackBounded hs b
  | upd b =>
    obtain rfl := Host.Outcome.next.inj h
    rw [decAll_frame]
    exact unpackBody_unpackBounded hs b
  | nop | enc | encp | pks | pkf | dec | dece =>
    obtain ⟨-, -, -, hkept, -⟩ := registersACommandMayWrite _ s t h
    obtain ⟨hacc, hshift, hpend⟩ := hkept (by simp) (by simp) (by simp) (by simp) (by simp)
    rwa [State.UnpackBounded, hacc, hshift, hpend]

/-! ### The invariant -/

/-- The invariant speaks of the ports only through the number of tokens in the output buffer. -/
theorem State.Inv.setPorts {s : State} (h : s.Inv) (ws : List Word) {ts : List Token} (as : List HostAct)
    (ds : List HostData) (hts : ts.length ≤ s.cfg.outDepth) :
    State.Inv { s with cmdPort := ws, outBuf := ts, hostActs := as, received := ds } :=
  ⟨h.params, h.pack, h.shift, h.held, h.unpack, h.reserved, h.clean, h.recorded, hts⟩

/-- With every register 0 it holds, for well-formed parameters and a buffer within its depth. -/
theorem clearRegisters_inv {s : State} (hwf : s.cfg.wf = true) (hbuf : s.outBuf.length ≤ s.cfg.outDepth) :
    s.clearRegisters.Inv :=
  have hill : statusIll 0#32 = false := rfl
  ⟨hwf, Nat.one_pos, Nat.zero_le 6, fun _ => rfl, fun _ => Nat.one_pos, BitVec.extractLsb'_zero, fun _ => rfl,
    fun h => absurd (hill.symm.trans h) Bool.false_ne_true, hbuf⟩

/-- Every command that is run with room for its tokens keeps the invariant. -/
theorem exec_keeps_inv {i : Instr} {s t : State} (h : exec i s = .next t) (hs : s.Inv) (hroom : s.hasRoom = true) :
    t.Inv := by
  by_cases hi : i = .clr
  · obtain rfl := hi
    obtain rfl := Host.Outcome.next.inj h
    exact clearRegisters_inv hs.params hs.buffer
  · have hpack := exec_keeps_packBounded h hs.pack
    obtain ⟨hshift, hheld, hunpack⟩ := exec_keeps_unpackBounded h ⟨hs.shift, hs.held, hs.unpack⟩
    obtain ⟨⟨-, -, -, hcfg⟩, herr, -⟩ := registersACommandMayWrite i s t h
    obtain ⟨hstatus, herrcmd⟩ := herr hi
    obtain ⟨t', ts, ht, hlen, hout⟩ := exec_appends_at_most_two i s
    obtain rfl := Host.Outcome.next.inj (ht.symm.trans h)
    have hroom' : s.outBuf.length + 2 ≤ s.cfg.outDepth := of_decide_eq_true hroom
    refine ⟨hcfg ▸ hs.params, hpack, hshift, hheld, hunpack, hstatus ▸ hs.reserved, ?_, ?_, ?_⟩
    · rw [hstatus, herrcmd]
      exact hs.clean
    · rw [hstatus, herrcmd]
      exact hs.recorded
    · rw [hout, hcfg, List.length_append]
      omega

theorem setStatusIll_reserved (x : Word) : (setStatusIll x).extractLsb' 1 31 = x.extractLsb' 1 31 := by
  ext i hi
  simp [setStatusIll]

/-- Raising `IllegalCommand` with an illegal word keeps the invariant. -/
theorem raiseIllegal_keeps_inv {w : Word} (hw : legalWord w = false) {s : State} (hs : s.Inv) :
    (raiseIllegal w s).Inv := by
  have hset : statusIll (raiseIllegal w s).status = true := statusIll_setStatusIll s.status
  refine ⟨hs.params, hs.pack, hs.shift, hs.held, hs.unpack, (setStatusIll_reserved s.status).trans hs.reserved,
    fun h => absurd (hset.symm.trans h) (by decide), fun _ => ?_, hs.buffer⟩
  cases hill : statusIll s.status with
  | true =>
    rw [raiseIllegal_errcmd_of_ill hill]
    exact hs.recorded hill
  | false => simpa [raiseIllegal, hill] using hw

theorem legalWord_of_decode_error {w : Word} {e : DecodeError} (h : decode w = .error e) : legalWord w = false := by
  rw [← Bool.not_eq_true, legalWord_iff_exists_decode_ok]
  simp [h]

/-- Every act of the host keeps the invariant. -/
theorem hostAct_keeps_inv (a : HostAct) {s : State} (hs : s.Inv) : (hostAct a s).Inv := by
  cases a with
  | present | readSideband => exact hs.setPorts _ _ _ hs.buffer
  | assertReset => exact clearRegisters_inv (s := s.setOutBuf []) hs.params (Nat.zero_le _)
  | readToken =>
    cases hout : s.outBuf with
    | nil => simpa [hostAct, readToken_nil hout] using hs
    | cons t ts =>
      have hlen := hs.buffer
      rw [hout, List.length_cons] at hlen
      rw [hostAct, readToken_cons hout]
      exact hs.setPorts _ _ _ (Nat.le_of_succ_le hlen)

/-- Every block that is built meets the invariant. -/
theorem build_inv {cfg : Config} {s : State} (h : State.build cfg = .next s) : s.Inv := by
  unfold State.build at h
  split at h
  next hwf =>
    obtain rfl := Host.Outcome.next.inj h
    exact clearRegisters_inv (s := { State.reset with cfg := cfg }) hwf (Nat.zero_le _)
  next => cases h

/-- Every step keeps the invariant: a command, an illegal word, an act of the host, or nothing. -/
theorem step_keeps_inv {s t : State} (hs : s.Inv) (h : step s = .next t) : t.Inv := by
  obtain ⟨w, ws, i, -, hroom, -, hi⟩ | ⟨w, ws, e, -, -, he, hi⟩ | ⟨-, a, as, -, hi⟩ | ⟨-, -, hi⟩ := step_cases s
  · exact exec_keeps_inv (hi.symm.trans h) (hs.setPorts ws _ _ hs.buffer) hroom
  all_goals obtain rfl := Host.Outcome.next.inj (hi.symm.trans h)
  · exact raiseIllegal_keeps_inv (legalWord_of_decode_error he) (hs.setPorts ws _ _ hs.buffer)
  · exact hostAct_keeps_inv a (hs.setPorts _ as _ hs.buffer)
  · exact hs

/-- Settles O57: the built blocks and the four things a step can do. -/
theorem everyStepKeepsTheInvariant : Obligations.EveryStepKeepsTheInvariant :=
  ⟨fun _ _ => build_inv, fun _ _ => step_keeps_inv⟩

/-- Settles O56: the state after reset is the block built with the default parameters. -/
theorem resetMeetsTheInvariant : Obligations.ResetMeetsTheInvariant :=
  build_inv (if_pos Config.default_wf)

end Sys2Proof.Machine
end

section
/-! PROOFS. The step: the word it accepts, what the host does at the ports, the order of the tokens, and that every run goes on
(spec 30_encoding.md rule R70; 20_memory.md rule R57; 00_scope.md rule R10): obligations O50, O51, O52, O53, O54 and O55. -/

namespace Sys2Proof.Machine

open Sys2Proof.Laws

/-! ### Room for two tokens -/

theorem hasRoom_iff (s : State) : s.hasRoom = true ↔ s.outBuf.length + 2 ≤ s.cfg.outDepth := decide_eq_true_iff

theorem hasRoom_eq_false_iff (s : State) : s.hasRoom = false ↔ s.cfg.outDepth < s.outBuf.length + 2 :=
  decide_eq_false_iff_not.trans not_le

/-- An emptied output buffer has room, in a block whose buffer holds two tokens. -/
theorem hasRoom_drain {s : State} (h : 2 ≤ s.cfg.outDepth) : s.drain.hasRoom = true := by
  rw [hasRoom_iff]
  simpa [State.drain] using h

/-- The step with a legal word that can be accepted. -/
theorem step_command {s : State} {w : Word} {ws : List Word} {i : Instr} (hport : s.cmdPort = w :: ws)
    (hroom : s.hasRoom = true) (hw : decode w = .ok i) : step s = exec i (s.setCmdPort ws) :=
  (step_accept hport hroom).trans (executeWord_of_command hw _)

/-- The step with no word that can be accepted and nothing for the host to do. -/
theorem step_idle {s : State} (hblocked : s.cmdPort = [] ∨ s.hasRoom = false) (hacts : s.hostActs = []) :
    step s = .next s := by
  rw [step_between hblocked, betweenCommands, hacts]

/-- The step in which the host reads the oldest token. -/
theorem step_readToken {s : State} {as : List HostAct} {t : Token} {ts : List Token}
    (hblocked : s.cmdPort = [] ∨ s.hasRoom = false) (hacts : s.hostActs = .readToken :: as) (hout : s.outBuf = t :: ts) :
    step s = .next { s with hostActs := as, outBuf := ts, received := s.received ++ [.token t] } := by
  have hout' : (s.setHostActs as).outBuf = t :: ts := hout
  rw [step_hostAct hblocked hacts, hostAct, readToken_cons hout']
  rfl

/-! ### The word the step accepts -/

/-- Settles O50: room for two tokens is the condition to accept a word. -/
theorem stepRunsTheDecodedCommand : Obligations.StepRunsTheDecodedCommand :=
  fun s _ _ _ hport hroom hw => step_command hport ((hasRoom_iff s).mpr hroom) hw

/-- A word of the opcode table is one the decoder takes. -/
theorem decode_of_decodeTableWord {nbits w : Nat} {i : Instr} (h : decodeTableWord nbits w = some i) :
    decode (BitVec.ofNat 32 (w % 2 ^ nbits)) = .ok i := by
  unfold decodeTableWord at h
  split at h
  · split at h
    next j hj =>
      obtain rfl := Option.some.inj h
      exact hj
    next => cases h
  · cases h

/-- Settles O51: the placed word stands at the head of the port, and there is room, the buffer drained where there was none. -/
theorem placedWordRunsNext : Obligations.PlacedWordRunsNext := by
  intro s nbits w i hdepth hw
  have hdecode := decode_of_decodeTableWord hw
  by_cases hroom : s.hasRoom = true
  · simp only [State.withFetchWord, State.placeWord, if_pos hroom]
    exact step_command (State.setCmdPort_cmdPort s _) hroom hdecode
  · simp only [State.withFetchWord, State.placeWord, if_neg hroom]
    exact step_command (State.setCmdPort_cmdPort s.drain _) (hasRoom_drain hdepth) hdecode

/-! ### The host at the ports -/

/-- Settles O53, by the host's next act. -/
theorem hostActsAtThePorts : Obligations.HostActsAtThePorts := by
  intro s hblocked
  refine ⟨step_idle hblocked, fun w as hacts => step_hostAct hblocked hacts, fun as hacts hout => ?_,
    fun as t ts => step_readToken hblocked⟩
  have hout' : (s.setHostActs as).outBuf = [] := hout
  rw [step_hostAct hblocked hacts, hostAct, readToken_nil hout']
  rfl

/-- Settles O52: a word that waits for room leaves the step to the host. -/
theorem noRoomNoCommand : Obligations.NoRoomNoCommand := by
  intro s w ws _ hfull
  have hblocked : s.cmdPort = [] ∨ s.hasRoom = false := .inr ((hasRoom_eq_false_iff s).mpr hfull)
  exact ⟨step_idle hblocked, fun as t ts => step_readToken hblocked⟩

/-! ### The output stream -/

/-- What is handed over is at the end of what the host has taken. -/
theorem outputSoFar_eq_append {s t : State} {ts : List Token} (hreceived : t.received = s.received)
    (hout : t.outBuf = s.outBuf ++ ts) : t.outputSoFar = s.outputSoFar ++ ts := by
  rw [State.outputSoFar, State.outputSoFar, hreceived, hout, List.append_assoc]

/-- Reading a token moves it from the tokens not taken to those taken. -/
theorem outputSoFar_readToken (s : State) : s.readToken.outputSoFar = s.outputSoFar := by
  cases hout : s.outBuf with
  | nil => rw [readToken_nil hout]
  | cons t ts => simp [readToken_cons hout, State.outputSoFar, hout, HostData.token?]

/-- Of the acts of the host, reset alone changes the stream. -/
theorem outputSoFar_hostAct {a : HostAct} (ha : a ≠ .assertReset) (s : State) :
    (hostAct a s).outputSoFar = s.outputSoFar := by
  cases a with
  | present w => rfl
  | readToken => exact outputSoFar_readToken s
  | readSideband r => simp [hostAct, State.outputSoFar, HostData.token?]
  | assertReset => exact absurd rfl ha

/-- Reset loses the tokens the host has not taken. -/
theorem outputSoFar_resetInput (s : State) : s.resetInput.outputSoFar ++ s.outBuf = s.outputSoFar := by
  simp [State.outputSoFar, State.resetInput, State.clearRegisters]

/-- Settles O54, by what a step can do: a command appends its tokens, an illegal word none, and of the acts of the host only
reset changes the stream. -/
theorem tokensComeOutInOrder : Obligations.TokensComeOutInOrder := by
  intro s t h
  obtain ⟨w, ws, i, -, -, -, hs⟩ | ⟨w, ws, e, -, -, -, hs⟩ | ⟨-, a, as, hacts, hs⟩ | ⟨-, -, hs⟩ := step_cases s
  · have hexec : exec i (s.setCmdPort ws) = .next t := hs.symm.trans h
    obtain ⟨⟨-, -, hreceived, -⟩, -⟩ := registersACommandMayWrite i _ t hexec
    obtain ⟨t', ts, ht, hlen, hout⟩ := exec_appends_at_most_two i (s.setCmdPort ws)
    obtain rfl := Host.Outcome.next.inj (ht.symm.trans hexec)
    exact .inl ⟨ts, hlen, outputSoFar_eq_append hreceived hout⟩
  all_goals obtain rfl := Host.Outcome.next.inj (hs.symm.trans h)
  · exact .inl ⟨[], Nat.zero_le 2, outputSoFar_eq_append rfl (List.append_nil _).symm⟩
  · by_cases ha : a = .assertReset
    · subst ha
      exact .inr ⟨as, hacts, outputSoFar_resetInput (s.setHostActs as)⟩
    · exact .inl ⟨[], Nat.zero_le 2, (outputSoFar_hostAct ha (s.setHostActs as)).trans (List.append_nil _).symm⟩
  · exact .inl ⟨[], Nat.zero_le 2, (List.append_nil _).symm⟩

/-! ### Runs -/

/-- Every step answers a next state. -/
theorem exists_step_eq_next (s : State) : ∃ t, step s = .next t := by
  obtain ⟨w, ws, i, -, -, -, hs⟩ | ⟨w, ws, e, -, -, -, hs⟩ | ⟨-, a, as, -, hs⟩ | ⟨-, -, hs⟩ := step_cases s
  · obtain ⟨t, -, ht, -⟩ := exec_appends_at_most_two i (s.setCmdPort ws)
    exact ⟨t, hs.trans ht⟩
  all_goals exact ⟨_, hs⟩

theorem run_succ {M : Host.Core} {s t : M.State} (h : M.step s = .next t) (k : Nat) : M.run (k + 1) s = M.run k t := by
  simp [Host.Core.run, h]

/-- Settles O55, by induction on the number of steps. -/
theorem everyRunGoesOn : Obligations.EveryRunGoesOn := by
  intro s k
  induction k generalizing s with
  | zero => exact ⟨s, rfl⟩
  | succ k ih =>
    obtain ⟨t, ht⟩ := exists_step_eq_next s
    obtain ⟨u, hu⟩ := ih t
    exact ⟨u, (run_succ (M := Sys2Proof.core) ht k).trans hu⟩

end Sys2Proof.Machine
end

section
/-! PROOFS. The parameters and the alphabet ROM (spec 00_scope.md rule R7; 20_memory.md rules R41 to R46; 40_alphabet.md rule
R103): obligations O21, O22, O24 and O27. -/

namespace Sys2Proof

/-! ### The lookups of the extension table -/

/-- `find?` gives the one element that meets the predicate. -/
theorem find?_eq_some_of_unique {α : Type} {p : α → Bool} {l : List α} {x : α} (hx : x ∈ l) (hp : p x = true)
    (hunique : ∀ y ∈ l, p y = true → y = x) : l.find? p = some x := by
  cases hf : l.find? p with
  | none => exact absurd hp (List.find?_eq_none.mp hf x hx)
  | some y => rw [hunique y (List.mem_of_find?_eq_some hf) (List.find?_some hf)]

theorem nodup_of_extCodesRise {cfg : Config} (h : (cfg.ext.map Prod.fst).Pairwise (· < ·)) :
    (cfg.ext.map Prod.fst).Nodup :=
  h.imp BitVec.ne_of_lt

/-- `ExtFind` finds exactly the entries of the table. -/
theorem Config.extFind_eq_some_iff {cfg : Config} (h : cfg.wf = true) {c : CharVal} {i : Septet} :
    cfg.extFind c = some i ↔ (i, c) ∈ cfg.ext := by
  refine ⟨Config.mem_of_extFind, fun hm => ?_⟩
  have hfind : cfg.ext.find? (fun e => e.2 == c) = some (i, c) :=
    find?_eq_some_of_unique hm (beq_self_eq_true c) fun e he hc =>
      List.inj_on_of_nodup_map (Config.wf_extChars h) he hm (eq_of_beq hc)
  rw [Config.extFind, hfind, Option.map_some]

/-- `ExtRead` reads exactly the entries of the table, at the codes alone. -/
theorem Config.extRead_eq_some_iff {cfg : Config} (h : cfg.wf = true) {n : Nat} {c : CharVal} :
    cfg.extRead n = some c ↔ n ≤ 127 ∧ (BitVec.ofNat 7 n, c) ∈ cfg.ext := by
  refine ⟨Config.mem_of_extRead, fun ⟨hn, hm⟩ => ?_⟩
  have hfind : cfg.ext.find? (fun e => e.1 == BitVec.ofNat 7 n) = some (BitVec.ofNat 7 n, c) :=
    find?_eq_some_of_unique hm (beq_self_eq_true _) fun e he hi =>
      List.inj_on_of_nodup_map (nodup_of_extCodesRise (Config.wf_extCodes h)) he hm (eq_of_beq hi)
  rw [Config.extRead, if_pos hn, hfind, Option.map_some]

theorem Config.extRead_toNat_eq_some_iff {cfg : Config} (h : cfg.wf = true) {i : Septet} {c : CharVal} :
    cfg.extRead i.toNat = some c ↔ (i, c) ∈ cfg.ext := by
  have hi : i.toNat ≤ 127 := by omega
  rw [Config.extRead_eq_some_iff h, BitVec.ofNat_toNat, BitVec.setWidth_eq, and_iff_right hi]

/-- No index of 128 or more is a code (20_memory.md rule R45). -/
theorem Config.extRead_eq_none {cfg : Config} {n : Nat} (h : 128 ≤ n) : cfg.extRead n = none :=
  if_neg (by omega)

/-- A character has one index at most. -/
theorem Config.extRead_injective {cfg : Config} (h : cfg.wf = true) {m n : Nat} {c : CharVal}
    (hm : cfg.extRead m = some c) (hn : cfg.extRead n = some c) : m = n := by
  obtain ⟨hm127, hmem⟩ := Config.mem_of_extRead hm
  obtain ⟨hn127, hnem⟩ := Config.mem_of_extRead hn
  have hcode := Option.some.inj
    (((Config.extFind_eq_some_iff h).mpr hmem).symm.trans ((Config.extFind_eq_some_iff h).mpr hnem))
  have hnat := congrArg BitVec.toNat hcode
  simp only [BitVec.toNat_ofNat] at hnat
  omega

/-- `ExtFind` misses exactly the characters no index gives. -/
theorem Config.extFind_eq_none_iff {cfg : Config} (h : cfg.wf = true) {c : CharVal} :
    cfg.extFind c = none ↔ ∀ n, cfg.extRead n ≠ some c := by
  rw [Option.eq_none_iff_forall_ne_some]
  constructor
  · intro hnone n hn
    exact hnone _ ((Config.extFind_eq_some_iff h).mpr (Config.mem_of_extRead hn).2)
  · intro hne i hi
    exact hne i.toNat ((Config.extRead_toNat_eq_some_iff h).mpr (Config.mem_of_extFind hi))

/-- Settles O21: both lookups are membership in the list, in which a code and a character occur once. -/
theorem extensionLookupsAgree : Obligations.ExtensionLookupsAgree := by
  intro cfg c h
  exact ⟨fun i => (Config.extFind_eq_some_iff h).trans (Config.extRead_toNat_eq_some_iff h).symm,
    Config.extFind_eq_none_iff h, fun i => Config.extRead_toNat_eq_some_iff h, fun n => Config.extRead_eq_none,
    fun m n => Config.extRead_injective h⟩

/-! ### The conditions on the parameters -/

/-- No character repeats in the basic table when no two codes read the same. -/
theorem Config.basicInjective_iff (cfg : Config) :
    cfg.basicInjective = true ↔ ∀ i j, cfg.basicRead i = cfg.basicRead j → i = j := by
  rw [Config.basicInjective, decide_eq_true_iff]
  constructor
  · intro hnodup i j hij
    rw [cfg.basicRead_eq_toList_getElem, cfg.basicRead_eq_toList_getElem] at hij
    exact BitVec.eq_of_toNat_eq (hnodup.getElem_inj_iff.mp hij)
  · intro hinj
    rw [List.nodup_iff_injective_getElem]
    intro m n hmn
    have hm : m.val < 2 ^ 7 := by simpa using m.isLt
    have hn : n.val < 2 ^ 7 := by simpa using n.isLt
    have hcode := hinj (BitVec.ofNatLT m.val hm) (BitVec.ofNatLT n.val hn)
      (by simpa [Config.basicRead_eq_toList_getElem] using hmn)
    exact Fin.ext (by simpa using congrArg BitVec.toNat hcode)

/-- With rising codes the entries are distinct, so no character repeats when no two entries hold the same. -/
theorem Config.extInjective_iff {cfg : Config} (h : (cfg.ext.map Prod.fst).Pairwise (· < ·)) :
    cfg.extInjective = true ↔ ∀ a ∈ cfg.ext, ∀ b ∈ cfg.ext, a.2 = b.2 → a = b := by
  rw [Config.extInjective, decide_eq_true_iff]
  exact List.nodup_map_iff_inj_on (nodup_of_extCodesRise h).of_map

/-- The check of the parameters is that of the conditions of 00_scope.md rule R7. -/
theorem Config.wf_iff (cfg : Config) :
    cfg.wf = true ↔ (∀ i j, cfg.basicRead i = cfg.basicRead j → i = j)
      ∧ (cfg.ext.map Prod.fst).Pairwise (· < ·) ∧ (∀ a ∈ cfg.ext, ∀ b ∈ cfg.ext, a.2 = b.2 → a = b)
      ∧ 2 ≤ cfg.outDepth := by
  simp only [Config.wf, Bool.and_eq_true, and_assoc, Config.basicInjective_iff, Config.extCodesRise,
    Config.depthAtLeastTwo, decide_eq_true_iff]
  refine and_congr_right fun _ => and_congr_right fun hrise => ?_
  rw [Config.extInjective_iff hrise]

/-- Settles O24: the block is built on the check of the conditions. -/
theorem illFormedParametersAreRefused : Obligations.IllFormedParametersAreRefused := by
  intro cfg
  rw [Machine.State.build]
  exact if_congr cfg.wf_iff rfl rfl

/-! ### The default tables -/

/-- The codes of the default extension table. -/
theorem Config.default_extRead_code {n : Nat} {c : CharVal} (h : Config.default.extRead n = some c) :
    n ∈ [0x0A, 0x14, 0x28, 0x29, 0x2F, 0x3C, 0x3D, 0x3E, 0x40, 0x65] := by
  have hall : Config.default.ext.all (fun e =>
      e.1.toNat ∈ [0x0A, 0x14, 0x28, 0x29, 0x2F, 0x3C, 0x3D, 0x3E, 0x40, 0x65]) = true := by decide
  obtain ⟨hn, hm⟩ := Config.mem_of_extRead h
  have hcode := of_decide_eq_true (List.all_eq_true.mp hall _ hm)
  rwa [BitVec.toNat_ofNat, Nat.mod_eq_of_lt (by omega)] at hcode

/-- The two default tables share no character. -/
theorem Config.default_ext_not_basic {i : Septet} {c : CharVal} (h : (i, c) ∈ Config.default.ext) :
    Config.default.basicFind c = none := by
  have hall : Config.default.ext.all (fun e => (Config.default.basicFind e.2).isNone) = true := by decide +kernel
  simpa using List.all_eq_true.mp hall (i, c) h

/-- Settles O22: the tables row by row, and what their lists hold of codes and characters. -/
theorem defaultTablesHoldTheSpecsEntries : Obligations.DefaultTablesHoldTheSpecsEntries := by
  refine ⟨by decide +kernel, by decide +kernel, by decide +kernel, by decide +kernel, by decide, fun n hn => ?_,
    fun n c hc => ?_⟩
  · exact Option.eq_none_iff_forall_ne_some.mpr fun c hc => hn (Config.default_extRead_code hc)
  · exact Config.default_ext_not_basic (Config.mem_of_extRead hc).2

end Sys2Proof

namespace Sys2Proof.Machine

/-! ### A character in neither table -/

theorem encSeq_of_basicFind {cfg : Config} {c : CharVal} {i : Septet} (h : cfg.basicFind c = some i) :
    encSeq cfg c = [i] := by
  simp [encSeq, h]

theorem encSeq_of_miss {cfg : Config} {c : CharVal} (hb : cfg.basicFind c = none) (he : cfg.extFind c = none) :
    encSeq cfg c = [spSeptet] := by
  simp [encSeq, hb, he]

/-- Settles O27: both characters have the septets `[0x20]`, and the commands see the character through them alone. -/
theorem unsupportedCharacterActsAsSpace : Obligations.UnsupportedCharacterActsAsSpace := by
  intro c s hwf hspace hb he
  have hmiss : encSeq s.cfg c = [0x20#7] := encSeq_of_miss hb he
  have hsp : encSeq s.cfg 0x20#24 = [0x20#7] := encSeq_of_basicFind ((Config.basicFind_eq_some_iff hwf).mpr hspace)
  refine ⟨?_, ?_, ?_⟩
  · rw [exec_enc, exec_enc, hmiss, hsp]
  · rw [exec_encp, exec_encp, hmiss, hsp]
  · rw [exec_enc, hmiss]
    rfl

end Sys2Proof.Machine
end

section
/-! PROOFS. The assembler (spec 30_encoding.md rules R77 and R78): obligations O58 and O59. -/

namespace Sys2Proof.Laws

/-- With an `OP` of a form and a `DATA` legal for it, the word put together from them is a command's. -/
theorem exists_decode_commandWord {op : BitVec 4} {d : BitVec 24} {f : OperandForm} (hf : opcodeForm op = some f)
    (hd : d ∈ legalData f) : ∃ i, decode (commandWord op d) = .ok i ∧ i.opcode = op ∧ i.data = d := by
  have hform : opcodeForm (opField (commandWord op d)) = some f := by rwa [opField_commandWord]
  have hlegal : rsvField (commandWord op d) = 0#4 ∧ dataField (commandWord op d) ∈ legalData f :=
    ⟨rsvField_commandWord op d, by rwa [dataField_commandWord]⟩
  obtain ⟨i, hi⟩ := (exists_decode_ok_iff_of_form hform).mpr hlegal
  exact ⟨i, hi, (opField_of_decode hi).symm.trans (opField_commandWord op d),
    (dataField_of_decode hi).symm.trans (dataField_commandWord op d)⟩

/-- The word of rule R77 as a number. -/
theorem commandWord_ofNat (op : BitVec 4) {n : Nat} (hn : n < 2 ^ 24) :
    commandWord op (BitVec.ofNat 24 n) = BitVec.ofNat 32 (n <<< 8 ||| op.toNat) := by
  have h24 : n % 16777216 = n := Nat.mod_eq_of_lt hn
  have h32 : n % 4294967296 = n := Nat.mod_eq_of_lt (hn.trans (by decide))
  apply BitVec.eq_of_toNat_eq
  simp [commandWord, h24, h32]

end Sys2Proof.Laws

namespace Sys2Proof.Machine

open Sys2Proof.Laws

/-! ### One command, by the form of its `OP` -/

theorem assembleCommand_of_noneForm {op : BitVec 4} (h : opcodeForm op = some .none) :
    assembleCommand op none = .ok (commandWord op 0#24) ∧ ∀ n, assembleCommand op (some n) = .error .badOperand := by
  simp [assembleCommand, h]

theorem assembleCommand_of_charForm {op : BitVec 4} (h : opcodeForm op = some .char) :
    assembleCommand op none = .error .badOperand
    ∧ ∀ n, assembleCommand op (some n)
      = if n < 2 ^ 24 then .ok (commandWord op (BitVec.ofNat 24 n)) else .error .outOfRange := by
  simp [assembleCommand, h]

theorem assembleCommand_of_byteForm {op : BitVec 4} (h : opcodeForm op = some .byte) :
    assembleCommand op none = .error .badOperand
    ∧ ∀ n, assembleCommand op (some n)
      = if n < 2 ^ 8 then .ok (commandWord op (BitVec.ofNat 24 n)) else .error .outOfRange := by
  simp [assembleCommand, h]

theorem assembleCommand_of_reserved {op : BitVec 4} (h : opcodeForm op = none) (operand : Option Nat) :
    assembleCommand op operand = .error .unknownMnemonic := by
  cases operand <;> simp [assembleCommand, h]

/-- An assembled word is put together from its `OP` and a `DATA` that is legal for the form and holds the operand. -/
theorem assembleCommand_eq_ok {op : BitVec 4} {operand : Option Nat} {w : Word} (h : assembleCommand op operand = .ok w) :
    ∃ f d, opcodeForm op = some f ∧ d ∈ legalData f ∧ w = commandWord op d ∧ d.toNat = operand.getD 0 := by
  cases hf : opcodeForm op with
  | none => simp [assembleCommand_of_reserved hf] at h
  | some f =>
    refine ⟨f, BitVec.ofNat 24 (operand.getD 0), rfl, ?_⟩
    cases f with
    | none =>
      obtain ⟨hnone, hsome⟩ := assembleCommand_of_noneForm hf
      cases operand with
      | none => exact ⟨rfl, (Except.ok.inj (hnone.symm.trans h)).symm, rfl⟩
      | some n => simp [hsome] at h
    | char =>
      obtain ⟨hnone, hsome⟩ := assembleCommand_of_charForm hf
      cases operand with
      | none => simp [hnone] at h
      | some n =>
        obtain ⟨hn, hw⟩ : n < 2 ^ 24 ∧ commandWord op (BitVec.ofNat 24 n) = w := by simpa [hsome, ite_eq_iff] using h
        exact ⟨Set.mem_univ _, hw.symm, Nat.mod_eq_of_lt hn⟩
    | byte =>
      obtain ⟨hnone, hsome⟩ := assembleCommand_of_byteForm hf
      cases operand with
      | none => simp [hnone] at h
      | some n =>
        obtain ⟨hn, hw⟩ : n < 2 ^ 8 ∧ commandWord op (BitVec.ofNat 24 n) = w := by simpa [hsome, ite_eq_iff] using h
        have h256 : n % 256 = n := Nat.mod_eq_of_lt hn
        have hbyte : (BitVec.ofNat 8 n).setWidth 24 = BitVec.ofNat 24 n := by
          apply BitVec.eq_of_toNat_eq
          simp [h256]
        exact ⟨⟨BitVec.ofNat 8 n, hbyte⟩, hw.symm, Nat.mod_eq_of_lt (hn.trans (by decide))⟩

/-! ### The name of a line -/

/-- A capital letter is no blank and starts no comment. -/
theorem not_blank_of_isUpper {c : Char} (h : c.isUpper = true) : isBlank c = false ∧ (c == ';') = false := by
  refine ⟨?_, ?_⟩
  · simp only [isBlank, Bool.or_eq_false_iff, beq_eq_false_iff_ne]
    constructor <;> rintro rfl <;> revert h <;> decide
  · rw [beq_eq_false_iff_ne]
    rintro rfl
    revert h; decide

/-- The parts of a line that starts with a name in capital letters and a blank. -/
theorem line_parts {name : List Char} (hne : name ≠ []) (hupper : name.all Char.isUpper = true) (cs : List Char) :
    atLineEnd (name ++ ' ' :: cs) = false ∧ ((name ++ ' ' :: cs).dropWhile isBlank).span Char.isUpper
      = (name, ' ' :: cs) := by
  have hblank : (name ++ ' ' :: cs).dropWhile isBlank = name ++ ' ' :: cs := by
    cases name with
    | nil => exact absurd rfl hne
    | cons c name =>
      obtain ⟨hc, -⟩ := not_blank_of_isUpper (List.all_eq_true.mp hupper c (by simp))
      simp [hc]
  refine ⟨?_, ?_⟩
  · rw [atLineEnd, hblank]
    cases name with
    | nil => exact absurd rfl hne
    | cons c name => exact (not_blank_of_isUpper (List.all_eq_true.mp hupper c (by simp))).2
  · have hspace : Char.isUpper ' ' = false := by decide
    rw [hblank, List.span_eq_takeWhile_dropWhile, List.takeWhile_append_of_pos (List.all_eq_true.mp hupper),
      List.dropWhile_append_of_pos (List.all_eq_true.mp hupper)]
    simp [hspace]

theorem atOperandEnd_space (cs : List Char) : atOperandEnd (' ' :: cs) = true := rfl

/-- A line that starts with a mnemonic and a blank is that command's. -/
theorem assembleLine_of_mnemonic {name : List Char} {op : BitVec 4} (hne : name ≠ [])
    (hupper : name.all Char.isUpper = true) (hop : mnemonicTable.lookup name = some op) (cs : List Char) :
    assembleLine (name ++ ' ' :: cs) = assembleOperands op (' ' :: cs) := by
  obtain ⟨hend, hspan⟩ := line_parts hne hupper cs
  simp only [assembleLine, hend, hspan, hop, atOperandEnd_space, Bool.false_eq_true, if_false, if_true]

/-- A line that starts with the name of a pseudo-instruction and a blank is that pseudo-instruction's. -/
theorem assembleLine_of_pseudo {name : List Char} {op : BitVec 4} {last : Option (BitVec 4)} (hne : name ≠ [])
    (hupper : name.all Char.isUpper = true) (hno : mnemonicTable.lookup name = none)
    (hop : pseudoTable.lookup name = some (op, last)) (cs : List Char) :
    assembleLine (name ++ ' ' :: cs) = assemblePseudo op last (' ' :: cs) := by
  obtain ⟨hend, hspan⟩ := line_parts hne hupper cs
  simp only [assembleLine, hend, hspan, hno, hop, atOperandEnd_space, Bool.false_eq_true, if_false, if_true]

/-- The names of the mnemonics are in capital letters, and each is looked up as its own row. -/
theorem mnemonicTable_names : ∀ e ∈ mnemonicTable,
    e.1 ≠ [] ∧ e.1.all Char.isUpper = true ∧ mnemonicTable.lookup e.1 = some e.2 := by
  decide

/-- So are the names of the pseudo-instructions, which are no mnemonics. -/
theorem pseudoTable_names : ∀ e ∈ pseudoTable, e.1 ≠ [] ∧ e.1.all Char.isUpper = true
    ∧ mnemonicTable.lookup e.1 = none ∧ pseudoTable.lookup e.1 = some e.2 := by
  decide

/-- Settles O58: the word of each form as a number, the command it decodes to, and the names. -/
theorem assembledWordsDecode : Obligations.AssembledWordsDecode := by
  refine ⟨fun op h => ?none, fun op n h => ?char, fun op n h => ?byte, ?missing, fun op operand w h => ?decode,
    by decide, fun e he cs => ?line⟩
  case none =>
    obtain ⟨hword, herror⟩ := assembleCommand_of_noneForm h
    exact ⟨hword.trans (congrArg _ (by simp [commandWord])), herror⟩
  case char =>
    obtain ⟨-, hsome⟩ := assembleCommand_of_charForm h
    rw [hsome]
    exact ite_congr rfl (fun hn => congrArg _ (commandWord_ofNat op hn)) fun _ => rfl
  case byte =>
    obtain ⟨-, hsome⟩ := assembleCommand_of_byteForm h
    rw [hsome]
    exact ite_congr rfl (fun hn => congrArg _ (commandWord_ofNat op (by omega))) fun _ => rfl
  case missing =>
    rintro op (h | h)
    · exact (assembleCommand_of_charForm h).1
    · exact (assembleCommand_of_byteForm h).1
  case decode =>
    obtain ⟨f, d, hf, hd, rfl, hoperand⟩ := assembleCommand_eq_ok h
    obtain ⟨i, hi, hop, hdata⟩ := exists_decode_commandWord hf hd
    exact ⟨i, hi, hop, hdata ▸ hoperand⟩
  case line =>
    obtain ⟨hne, hupper, hlookup⟩ := mnemonicTable_names e he
    exact assembleLine_of_mnemonic hne hupper hlookup cs

/-! ### The pseudo-instructions -/

theorem assembleCommand_char {op : BitVec 4} (h : opcodeForm op = some .char) (c : CharVal) :
    assembleCommand op (some c.toNat) = .ok (commandWord op c) := by
  obtain ⟨-, hsome⟩ := assembleCommand_of_charForm h
  rw [hsome, if_pos c.isLt, BitVec.ofNat_toNat, BitVec.setWidth_eq]

theorem assembleCommand_byte {op : BitVec 4} (h : opcodeForm op = some .byte) (b : Octet) :
    assembleCommand op (some b.toNat) = .ok (commandWord op (b.setWidth 24)) := by
  obtain ⟨-, hsome⟩ := assembleCommand_of_byteForm h
  rw [hsome, if_pos b.isLt, BitVec.ofNat_toNat]

theorem assembleEach_end {op e : BitVec 4} (h : opcodeForm e = some .none) :
    assembleEach op (some e) [] = .ok [commandWord e 0#24] := by
  simp [assembleEach, assembleCommand_of_noneForm h]

/-- The words of a pseudo-instruction are those of its elements' commands, then those of its end. -/
theorem assembleEach_map {α : Type} {op : BitVec 4} {last : Option (BitVec 4)} {value : α → Nat} {command : α → Instr}
    {ending : List Instr} (hcommand : ∀ x, assembleCommand op (some (value x)) = .ok (encode (command x)))
    (hending : assembleEach op last [] = .ok (ending.map encode)) (xs : List α) :
    assembleEach op last (xs.map value) = .ok ((xs.map command ++ ending).map encode) := by
  induction xs with
  | nil => exact hending
  | cons x xs ih => simp [assembleEach, hcommand, ih]

/-- Settles O59: each element's word is the encoding of its command, the end command has one word, and the names. -/
theorem pseudoInstructionsAssembleToCalls : Obligations.PseudoInstructionsAssembleToCalls := by
  refine ⟨fun text => ⟨_, assembleEach_map (command := .enc) (assembleCommand_char rfl) (ending := []) rfl text, ?_⟩,
    fun text => ⟨_, assembleEach_map (command := .encp) (ending := [.pkf]) (assembleCommand_char rfl)
      (assembleEach_end rfl) text, rfl⟩,
    fun bs => ⟨?_, ?_, ?_, ?_⟩, rfl, by decide, fun e he cs => ?_⟩
  · rw [List.append_nil, encStr]
  · exact assembleEach_map (command := .dec) (ending := [.dece]) (assembleCommand_byte rfl) (assembleEach_end rfl) bs
  · exact assembleEach_map (command := .upd) (ending := [.upde]) (assembleCommand_byte rfl) (assembleEach_end rfl) bs
  · exact assembleEach_map (command := .pks) (ending := [.pkf]) (assembleCommand_byte rfl) (assembleEach_end rfl) bs
  · exact assembleEach_map (command := .upo) (ending := [.upe]) (assembleCommand_byte rfl) (assembleEach_end rfl) bs
  · obtain ⟨hne, hupper, hno, hlookup⟩ := pseudoTable_names e he
    exact assembleLine_of_pseudo hne hupper hno hlookup cs

end Sys2Proof.Machine
end

section
/-! PROOFS. Whole calls of the packer: a pack call and a packed encode call, against the packed form (spec 20_memory.md rule R51;
41_pack.md rules R122 to R126; 43_fused.md rules R162 and R163): obligations O30, O31, O32, O36 and O38. -/

namespace Sys2Proof.Machine

open Sys2Proof.Laws

/-! ### Commands one after another -/

theorem execAll_append {is : List Instr} {s t : State} (h : execAll is s = .next t) (js : List Instr) :
    execAll (is ++ js) s = execAll js t := by
  induction is generalizing s with
  | nil =>
    obtain rfl := Host.Outcome.next.inj h
    rfl
  | cons i is ih =>
    obtain ⟨u, -, hu, -⟩ := exec_appends_at_most_two i s
    rw [execAll_cons hu] at h
    rw [List.cons_append, execAll_cons hu, ih h]

theorem execAll_singleton (i : Instr) (s : State) : execAll [i] s = exec i s := by
  obtain ⟨t, -, ht, -⟩ := exec_appends_at_most_two i s
  rw [execAll_cons ht, ht]
  rfl

/-! ### Septets through the packer -/

theorem septetOf_byteOfSeptet (v : Septet) : septetOf (byteOfSeptet v) = v :=
  BitVec.setWidth_setWidth_of_le v (by decide)

/-- The bytes of septets are those septets again to the packer. -/
theorem map_septetOf_byteOfSeptet (vs : List Septet) : (vs.map byteOfSeptet).map septetOf = vs := by
  simp [Function.comp_def, septetOf_byteOfSeptet]

/-- The packer takes the low 7 bits of a byte. -/
theorem packBody_byteOfSeptet_septetOf (b : Octet) (s : State) : packBody (byteOfSeptet (septetOf b)) s = packBody b s := by
  rw [packBody, packBody, septetOf_byteOfSeptet]

theorem packBody_emit (b : Octet) (s : State) (ts : List Token) :
    packBody b (s.emit ts) = ((packBody b s).1, (packBody b s).2.emit ts) := by
  by_cases h : s.pkFill = 0#3
  · rw [packBody_empty h, packBody_empty (s := s.emit ts) h]
    rfl
  · rw [packBody_filled h, packBody_filled (s := s.emit ts) h]
    rfl

theorem packAll_emit (vs : List Septet) (s : State) (ts : List Token) :
    packAll vs (s.emit ts) = ((packAll vs s).1, (packAll vs s).2.emit ts) := by
  induction vs generalizing s with
  | nil => rfl
  | cons v vs ih => simp only [packAll, packBody_emit, ih]

theorem packAll_append (vs ws : List Septet) (s : State) :
    packAll (vs ++ ws) s
      = ((packAll vs s).1 ++ (packAll ws (packAll vs s).2).1, (packAll ws (packAll vs s).2).2) := by
  induction vs generalizing s with
  | nil => rfl
  | cons v vs ih => simp only [List.cons_append, packAll, ih, List.append_assoc]

@[simp] theorem packAll_cfg (vs : List Septet) (s : State) : (packAll vs s).2.cfg = s.cfg := by
  rw [packAll_frame, State.setPack_cfg]

/-- `PKS` of bytes one after another packs their septets. -/
theorem execAll_pks (bs : List Octet) (s : State) :
    execAll (bs.map .pks) s
      = .next ((packAll (bs.map septetOf) s).2.emit ((packAll (bs.map septetOf) s).1.map .oct)) := by
  induction bs generalizing s with
  | nil => exact congrArg _ s.emit_nil.symm
  | cons b bs ih =>
    rw [List.map_cons, execAll_cons (exec_pks b s), ih, packAll_emit, State.emit_emit]
    simp only [List.map_cons, packAll, packBody_byteOfSeptet_septetOf, List.map_append]

/-- `ENCP` of characters one after another packs the septets of the text. -/
theorem execAll_encp (text : List CharVal) (s : State) :
    execAll (text.map .encp) s = .next ((packAll (encodeText s.cfg text) s).2.emit
      ((packAll (encodeText s.cfg text) s).1.map .oct)) := by
  induction text generalizing s with
  | nil => exact congrArg _ s.emit_nil.symm
  | cons c text ih =>
    have hc : exec (.encp c) s
        = .next ((packAll (encSeq s.cfg c) s).2.emit ((packAll (encSeq s.cfg c) s).1.map .oct)) := rfl
    rw [List.map_cons, execAll_cons hc, ih, packAll_emit, State.emit_emit, State.emit_cfg, packAll_cfg,
      encodeText_cons, packAll_append, List.map_append]

/-- Settles O30: each septet brings seven bits in and each octet takes eight out. -/
theorem fillAfterNSeptets : Obligations.FillAfterNSeptets := by
  intro bs s hfill
  have hbits := packAll_bits (bs.map septetOf) s
  rw [(toNat_eq_zero_iff _).mpr hfill, List.length_map] at hbits
  refine ⟨_, (packAll (bs.map septetOf) s).1.map .oct, execAll_pks bs s, ?_, ?_, ?_⟩
  · rw [State.emit_outBuf, packAll_outBuf]
  · rw [State.emit_pkFill]
    omega
  · rw [List.length_map]
    omega

/-- Settles O38: `ENCP` is the loop over the septets `ENC` emits. -/
theorem encpEqualsEncThenPks : Obligations.EncpEqualsEncThenPks := by
  intro c s
  have hpks := execAll_pks ((encSeq s.cfg c).map byteOfSeptet) s
  rw [map_septetOf_byteOfSeptet, List.map_map] at hpks
  exact ⟨encSeq s.cfg c, _, exec_enc c s, hpks, rfl⟩

/-! ### The bits that go through the packer -/

/-- One septet: the octet and the carry hold the carry before and the septet above it. -/
theorem packBody_value {s : State} (h : s.PackBounded) (b : Octet) :
    bitString (packBody b s).1 + 2 ^ (8 * (packBody b s).1.length) * (packBody b s).2.pkCarry.toNat
      = s.pkCarry.toNat + 2 ^ s.pkFill.toNat * (septetOf b).toNat := by
  by_cases hf : s.pkFill = 0#3
  · have hcarry : s.pkCarry.toNat = 0 := by simpa [State.PackBounded, hf] using h
    simp [packBody_empty hf, bitString_nil, hf, hcarry]
  · rw [packBody_filled hf]
    simpa [bitString_cons, bitString_nil] using packOctet_packRest (v := septetOf b) h

/-- Septets one after another: the octets and the carry hold the carry before and the septets' bit string above it. -/
theorem packAll_value {s : State} (h : s.PackBounded) (vs : List Septet) :
    bitString (packAll vs s).1 + 2 ^ (8 * (packAll vs s).1.length) * (packAll vs s).2.pkCarry.toNat
      = s.pkCarry.toNat + 2 ^ s.pkFill.toNat * bitString vs := by
  induction vs generalizing s with
  | nil => simp [packAll, bitString_nil]
  | cons v vs ih =>
    have hv := packBody_value h (byteOfSeptet v)
    have hbits := packBody_bits (byteOfSeptet v) s
    have hvs := ih (packBody_packBounded (byteOfSeptet v) s)
    rw [septetOf_byteOfSeptet] at hv
    simp only [packAll]
    generalize packBody (byteOfSeptet v) s = r at hv hbits hvs ⊢
    generalize packAll vs r.2 = q at hvs ⊢
    calc bitString (r.1 ++ q.1) + 2 ^ (8 * (r.1 ++ q.1).length) * q.2.pkCarry.toNat
      _ = bitString r.1 + 2 ^ (8 * r.1.length) * (bitString q.1 + 2 ^ (8 * q.1.length) * q.2.pkCarry.toNat) := by
        rw [bitString_append, List.length_append, Nat.mul_add, Nat.pow_add]
        ring
      _ = (bitString r.1 + 2 ^ (8 * r.1.length) * r.2.pkCarry.toNat)
          + 2 ^ (8 * r.1.length + r.2.pkFill.toNat) * bitString vs := by
        rw [hvs, Nat.pow_add]
        ring
      _ = s.pkCarry.toNat + 2 ^ s.pkFill.toNat * bitString (v :: vs) := by
        rw [hv, hbits, bitString_cons, Nat.pow_add]
        ring

/-! ### A whole call -/

/-- The octets of a call that packs the septets `vs` and ends with `PKF`. -/
def packCallOctets (vs : List Septet) (s : State) : List Octet := (packAll vs s).1 ++ packTail (packAll vs s).2

/-- `PKF` after septets ends the call: its octets are out, and the PACK registers are zeroed. -/
theorem exec_pkf_packAll (vs : List Septet) (s : State) :
    exec .pkf ((packAll vs s).2.emit ((packAll vs s).1.map .oct))
      = .next ((s.emit ((packCallOctets vs s).map .oct)).setPack 0#7 0#3) := by
  have htail : packTail ((packAll vs s).2.emit ((packAll vs s).1.map .oct)) = packTail (packAll vs s).2 := rfl
  rw [exec_pkf, htail, State.emit_emit, ← List.map_append, ← packCallOctets, packAll_frame]
  rfl

theorem packIdle_iff (s : State) : packIdle s = true ↔ s.pkFill = 0#3 ∧ s.pkCarry = 0#7 := by
  simp [packIdle]

/-- An idle packer is as the end of a call leaves it. -/
theorem setPack_of_packIdle {s : State} (h : packIdle s = true) : s.setPack 0#7 0#3 = s := by
  obtain ⟨hfill, hcarry⟩ := (packIdle_iff s).mp h
  rw [← hfill, ← hcarry]
  rfl

/-- From an idle packer the octets hold the septets' bit string and nothing above it. -/
theorem bitString_packCallOctets {s : State} (h : packIdle s = true) (vs : List Septet) :
    bitString (packCallOctets vs s) = bitString vs := by
  obtain ⟨hfill, hcarry⟩ := (packIdle_iff s).mp h
  have hbound : s.PackBounded := by simp [State.PackBounded, hfill, hcarry]
  have hvalue := packAll_value hbound vs
  have hbound' := packAll_packBounded hbound vs
  rw [hfill, hcarry] at hvalue
  by_cases hf : (packAll vs s).2.pkFill = 0#3
  · have hcarry' : (packAll vs s).2.pkCarry.toNat = 0 := by simpa [State.PackBounded, hf] using hbound'
    rw [packCallOctets, packTail_empty hf, List.append_nil]
    simpa [hcarry'] using hvalue
  · have hwide : ((packAll vs s).2.pkCarry.setWidth 8).toNat = (packAll vs s).2.pkCarry.toNat :=
      BitVec.toNat_setWidth_of_le (by decide)
    rw [packCallOctets, packTail_filled hf, bitString_append, bitString_cons, hwide]
    simpa [bitString_nil] using hvalue

theorem packCallOctets_length {s : State} (h : packIdle s = true) (vs : List Septet) :
    (packCallOctets vs s).length = packedLength vs.length := by
  have hbits := packAll_bits vs s
  rw [(toNat_eq_zero_iff _).mpr ((packIdle_iff s).mp h).1] at hbits
  rw [packCallOctets, List.length_append, packedLength]
  by_cases hf : (packAll vs s).2.pkFill = 0#3
  · rw [packTail_empty hf, List.length_nil]
    rw [(toNat_eq_zero_iff _).mpr hf] at hbits
    omega
  · have hpos : (packAll vs s).2.pkFill.toNat ≠ 0 := mt (toNat_eq_zero_iff _).mp hf
    rw [packTail_filled hf, List.length_singleton]
    omega

/-- A sequence is read back from its bit string, element by element. -/
theorem map_range_bitString {w : Nat} (xs : List (BitVec w)) :
    ((List.range xs.length).map fun k => BitVec.ofNat w (bitString xs >>> (w * k))) = xs := by
  induction xs with
  | nil => rfl
  | cons x xs ih =>
    have hhead : BitVec.ofNat w (bitString (x :: xs)) = x := by
      apply BitVec.eq_of_toNat_eq
      rw [bitString_cons, BitVec.toNat_ofNat, Nat.add_mul_mod_self_left, Nat.mod_eq_of_lt x.isLt]
    have htail (k : Nat) : bitString (x :: xs) >>> (w * (k + 1)) = bitString xs >>> (w * k) := by
      rw [Nat.mul_succ, Nat.add_comm, Nat.shiftRight_add, bitString_cons, Nat.shiftRight_eq_div_pow _ w,
        Nat.add_mul_div_left _ _ (Nat.two_pow_pos w), Nat.div_eq_of_lt x.isLt, Nat.zero_add]
    rw [List.length_cons, List.range_succ_eq_map, List.map_cons, Nat.mul_zero, Nat.shiftRight_zero, hhead,
      List.map_map]
    exact congrArg (x :: ·) ((List.map_congr_left fun k _ => congrArg _ (htail k)).trans ih)

/-- From an idle packer the octets of a call are the packed form of its septets (20_memory.md rule R51). -/
theorem packCallOctets_eq_packedForm {s : State} (h : packIdle s = true) (vs : List Septet) :
    packCallOctets vs s = packedForm vs := by
  rw [← map_range_bitString (packCallOctets vs s), bitString_packCallOctets h, packCallOctets_length h]
  rfl

theorem packedForm_length (vs : List Septet) : (packedForm vs).length = packedLength vs.length := by
  simp [packedForm]

/-- The padding of the packed form is 0 (41_pack.md rule R126). -/
theorem bitString_packedForm (vs : List Septet) : bitString (packedForm vs) = bitString vs := by
  have hidle : packIdle State.reset = true := rfl
  rw [← packCallOctets_eq_packedForm hidle, bitString_packCallOctets hidle]

/-- A call from an idle packer, by whatever commands its septets come in. -/
theorem execAll_packCall {is : List Instr} {vs : List Septet} {s : State} (h : packIdle s = true)
    (his : execAll is s = .next ((packAll vs s).2.emit ((packAll vs s).1.map .oct))) :
    execAll (is ++ [.pkf]) s = .next (s.emit ((packedForm vs).map .oct)) := by
  have hidle : packIdle (s.emit ((packCallOctets vs s).map .oct)) = true := h
  rw [execAll_append his, execAll_singleton, exec_pkf_packAll, setPack_of_packIdle hidle,
    packCallOctets_eq_packedForm h]

theorem execAll_packSept {s : State} (h : packIdle s = true) (bs : List Octet) :
    execAll (packSept bs) s = .next (s.emit ((packedForm (bs.map septetOf)).map .oct)) :=
  execAll_packCall h (execAll_pks bs s)

/-- A pack call of septets, one byte each. -/
theorem execAll_packSept_septets {s : State} (h : packIdle s = true) (vs : List Septet) :
    execAll (packSept (vs.map fun v => v.setWidth 8)) s = .next (s.emit ((packedForm vs).map .oct)) := by
  have hcall := execAll_packSept h (vs.map byteOfSeptet)
  rwa [map_septetOf_byteOfSeptet] at hcall

theorem execAll_encPStr {s : State} (h : packIdle s = true) (text : List CharVal) :
    execAll (encPStr text) s = .next (s.emit ((packedForm (encodeText s.cfg text)).map .oct)) :=
  execAll_packCall h (execAll_encp text s)

/-! ### The obligations -/

/-- Settles O31: the low 7 bits of a byte are its septet. -/
theorem packCallEmitsThePackedForm : Obligations.PackCallEmitsThePackedForm := by
  intro bs s h
  have hseptet (b : Octet) : BitVec.ofNat 7 (b.toNat &&& 0x7F) = septetOf b := by
    rw [← septetOf_toNat, BitVec.ofNat_toNat, BitVec.setWidth_eq]
  simp only [hseptet]
  exact execAll_packSept h bs

/-- Settles O36: `ENCP` of the characters packs the text's septets, and `PKF` ends the packed form. -/
theorem packedEncodeCallPacksTheText : Obligations.PackedEncodeCallPacksTheText :=
  fun text _ h => execAll_encPStr h text

/-- Settles O32: the length and the bit string of the packed form. -/
theorem packedLengthAndZeroPadding : Obligations.PackedLengthAndZeroPadding := by
  intro ss s h
  have hlength : (packedForm ss).length = (7 * ss.length + 7) / 8 := packedForm_length ss
  exact ⟨packedForm ss, _, execAll_packSept_septets h ss, rfl, hlength, by omega, by omega, bitString_packedForm ss⟩

end Sys2Proof.Machine
end

section
/-! PROOFS. Whole calls of the decoder and the unpacker, and the round-trips (spec 40_alphabet.md rule R109; 42_unpack.md rules
R146 and R147; 43_fused.md rules R165 and R166; 90_conflicts.md C2 and C3): obligations O29, O34, O35, O37, O39, O40 and O41. -/

namespace Sys2Proof.Machine

open Sys2Proof.Laws

/-! ### The decoder's body against its state machine -/

theorem eq_byteOfSeptet_escSeptet_iff (b : Octet) : b = byteOfSeptet escSeptet ↔ b.toNat = 0x1B := by
  rw [BitVec.toNat_eq]
  rfl

/-- One byte of the state machine of 40_alphabet.md rule R109 is one run of `DecBody`. -/
theorem decodeText_cons (b : Octet) (bs : List Octet) (s : State) :
    decodeText s.cfg s.decEsc (b :: bs) = (decBody b s).1 ++ decodeText s.cfg (decBody b s).2.decEsc bs := by
  cases hs : s.decEsc with
  | escaped =>
    rw [decBody_escaped hs]
    cases he : s.cfg.extRead b.toNat <;> simp [decodeText, he]
  | normal =>
    rw [decBody_normal hs]
    simp only [decodeText, eq_byteOfSeptet_escSeptet_iff]
    split_ifs
    · simp
    · simp [hs]
    · simp [hs]

/-- Septets through `DecBody`, then bytes to come. -/
theorem decodeText_append (xs : List Septet) (bs : List Octet) (s : State) :
    decodeText s.cfg s.decEsc (xs.map byteOfSeptet ++ bs)
      = (decAll xs s).1 ++ decodeText s.cfg (decAll xs s).2.decEsc bs := by
  induction xs generalizing s with
  | nil => rfl
  | cons x xs ih =>
    have hcfg : (decBody (byteOfSeptet x) s).2.cfg = s.cfg := by rw [decBody_frame, State.setDec_cfg]
    have hxs := ih (decBody (byteOfSeptet x) s).2
    rw [hcfg] at hxs
    simp only [List.map_cons, List.cons_append, decodeText_cons, hxs, decAll, List.append_assoc]

/-- A decode call from any state. -/
theorem execAll_decBytes (bs : List Octet) (s : State) :
    execAll (decBytes bs) s = .next ((s.setDec .normal).emit ((decodeText s.cfg s.decEsc bs).map .char)) := by
  induction bs generalizing s with
  | nil => exact congrArg _ (State.emit_nil _).symm
  | cons b bs ih =>
    have hframe (d : DecState) (ts : List Token) :
        ((s.setDec d).emit ts).setDec .normal = (s.setDec .normal).emit ts := rfl
    calc execAll (decBytes (b :: bs)) s
      _ = execAll (decBytes bs) ((s.setDec (decBody b s).2.decEsc).emit ((decBody b s).1.map .char)) :=
        execAll_cons (exec_dec_frame b s) _
      _ = .next ((s.setDec .normal).emit ((decodeText s.cfg s.decEsc (b :: bs)).map .char)) := by
        rw [ih, hframe, State.emit_emit, State.emit_cfg, State.setDec_cfg, State.emit_decEsc, State.setDec_decEsc,
          decodeText_cons, List.map_append]

/-- Settles O29: each `DEC` is one transition of the state machine, and `DECE` returns to `NORMAL`. -/
theorem decodeCallRunsTheStateMachine : Obligations.DecodeCallRunsTheStateMachine := execAll_decBytes

theorem decBody_emit (b : Octet) (s : State) (ts : List Token) :
    decBody b (s.emit ts) = ((decBody b s).1, (decBody b s).2.emit ts) := by
  cases hs : s.decEsc with
  | escaped =>
    rw [decBody_escaped hs, decBody_escaped (s := s.emit ts) hs]
    rfl
  | normal =>
    rw [decBody_normal hs, decBody_normal (s := s.emit ts) hs]
    split_ifs <;> rfl

theorem decAll_emit (xs : List Septet) (s : State) (ts : List Token) :
    decAll xs (s.emit ts) = ((decAll xs s).1, (decAll xs s).2.emit ts) := by
  induction xs generalizing s with
  | nil => rfl
  | cons x xs ih => simp only [decAll, decBody_emit, ih]

/-- `DEC` of septets one after another decodes them. -/
theorem execAll_dec (xs : List Septet) (s : State) :
    execAll (xs.map fun x => .dec (x.setWidth 8)) s = .next ((decAll xs s).2.emit ((decAll xs s).1.map .char)) := by
  induction xs generalizing s with
  | nil => exact congrArg _ s.emit_nil.symm
  | cons x xs ih =>
    rw [List.map_cons, execAll_cons (exec_dec _ s), ih, decAll_emit, State.emit_emit, ← List.map_append]
    rfl

/-- Settles O39: with its tokens dropped, `UPO` leaves the state its body leaves, from which `UPD` decodes. -/
theorem updEqualsUpoThenDec : Obligations.UpdEqualsUpoThenDec := by
  intro b s
  have hdropped : { (unpackBody b s).2.emit ((unpackBody b s).1.map .sept) with outBuf := s.outBuf }
      = (unpackBody b s).2 := by
    rw [unpackBody_frame]
    rfl
  refine ⟨(unpackBody b s).1, _, _, exec_upo b s, ?_, ?_, rfl⟩
  · rw [State.emit_outBuf, unpackBody_outBuf]
  · rw [hdropped, execAll_dec]

/-! ### A packed decode call -/

/-- What is to come depends on the UNPACK registers, not on the decoder. -/
theorem outputToCome_setDec (s : State) (d : DecState) (os : List Octet) :
    outputToCome (s.setDec d) os = outputToCome s os := by
  cases h : s.upPend <;> simp [outputToCome, releaseHeld, h]

/-- One octet of a packed decode call decodes its part of the septets to come. -/
theorem decodeText_outputToCome_cons {s : State} (hk : s.upShift.toNat ≤ 6) (o : Octet) (os : List Octet) :
    decodeText s.cfg s.decEsc ((outputToCome s (o :: os)).map byteOfSeptet)
      = (decAll (unpackBody o s).1 (unpackBody o s).2).1
        ++ decodeText s.cfg (decAll (unpackBody o s).1 (unpackBody o s).2).2.decEsc
          ((outputToCome (unpackBody o s).2 os).map byteOfSeptet) := by
  have hcfg : (unpackBody o s).2.cfg = s.cfg := by rw [unpackBody_frame, State.setUnpack_cfg]
  have hdec : (unpackBody o s).2.decEsc = s.decEsc := by rw [unpackBody_frame, State.setUnpack_decEsc]
  have happend := decodeText_append (unpackBody o s).1 ((outputToCome (unpackBody o s).2 os).map byteOfSeptet)
    (unpackBody o s).2
  rw [hcfg, hdec] at happend
  rw [outputToCome_cons hk, List.map_append, happend]

/-- A packed decode call with `UP_SHIFT` at most 6, as in every state a block can be in (10_state.md rule R24). -/
theorem execAll_updBytes_of_shift_le {s : State} (hk : s.upShift.toNat ≤ 6) (os : List Octet) :
    execAll (updBytes os) s = .next (((s.setUnpack 0#7 0#3 false).setDec .normal).emit
      ((decodeText s.cfg s.decEsc ((outputToCome s os).map byteOfSeptet)).map .char)) := by
  induction os generalizing s with
  | nil =>
    rw [outputToCome_nil, List.map_nil, decodeText, List.map_nil, State.emit_nil]
    rfl
  | cons o os ih =>
    have hframe (a : BitVec 7) (k : BitVec 3) (p : Bool) (d : DecState) (ts : List Token) :
        ((((s.setUnpack a k p).setDec d).emit ts).setUnpack 0#7 0#3 false).setDec .normal
          = ((s.setUnpack 0#7 0#3 false).setDec .normal).emit ts := rfl
    calc execAll (updBytes (o :: os)) s
      _ = execAll (updBytes os) _ := execAll_cons (exec_upd_frame o s) _
      _ = .next (((s.setUnpack 0#7 0#3 false).setDec .normal).emit
          ((decodeText s.cfg s.decEsc ((outputToCome s (o :: os)).map byteOfSeptet)).map .char)) := by
        rw [ih (by simpa using unpackBody_upShift_le o s), hframe, State.emit_emit, State.emit_cfg, State.setDec_cfg,
          State.setUnpack_cfg, State.emit_decEsc, State.setDec_decEsc, outputToCome_emit, outputToCome_setDec,
          ← unpackBody_frame, decodeText_outputToCome_cons hk, List.map_append]

theorem decIdle_iff (s : State) : decIdle s = true ↔ s.decEsc = .normal := by
  simp [decIdle]

/-- From an idle unpacker the septets to come are those of the equation (42_unpack.md rule R140). -/
theorem outputToCome_of_idle {s : State} (h : unpackIdle s = true) (os : List Octet) :
    outputToCome s os = unpackedForm os := by
  obtain ⟨hshift, hacc, hpend⟩ := (unpackIdle_iff s).mp h
  rw [outputToCome_of_not_pend hpend, hshift, hacc, ← sourceUnpack_eq_unpackedForm]
  rfl

/-- A packed decode call from idle engines, which leaves them idle. -/
theorem execAll_updBytes {s : State} (hunpack : unpackIdle s = true) (hdec : decIdle s = true) (os : List Octet) :
    execAll (updBytes os) s
      = .next (s.emit ((decodeText s.cfg .normal ((unpackedForm os).map byteOfSeptet)).map .char)) := by
  obtain ⟨hshift, hacc, hpend⟩ := (unpackIdle_iff s).mp hunpack
  have hnormal := (decIdle_iff s).mp hdec
  have hidle : (s.setUnpack 0#7 0#3 false).setDec .normal = s := by
    rw [← hshift, ← hacc, ← hpend, ← hnormal]
    rfl
  rw [execAll_updBytes_of_shift_le (by simp [hshift]), outputToCome_of_idle hunpack, hidle, hnormal]

/-- Settles O37: the septets `UPD` decodes are those an unpack call emits, the septets of the equation. -/
theorem packedDecodeCallDecodesTheSeptets : Obligations.PackedDecodeCallDecodesTheSeptets :=
  fun os _ hunpack hdec => execAll_updBytes hunpack hdec os

/-! ### The unpacked septets of a bit string -/

/-- The first `n` septets see the first `7n` bits alone. -/
theorem lowSeptets_mod (n B : Nat) : lowSeptets n (B % 2 ^ (7 * n)) = lowSeptets n B := by
  refine List.map_congr_left fun j hj => BitVec.eq_of_getLsbD_eq fun i hi => ?_
  have hbit : 7 * j + i < 7 * n := by
    have hjn := List.mem_range.mp hj
    omega
  simp only [BitVec.getLsbD_ofNat, Nat.testBit_shiftRight, Nat.testBit_mod_two_pow, hbit, decide_true, Bool.true_and]

theorem lowSeptets_bitString (vs : List Septet) : lowSeptets vs.length (bitString vs) = vs :=
  map_range_bitString vs

theorem lowSeptets_of_le {m n : Nat} (h : m ≤ n) (B : Nat) : lowSeptets m B = (lowSeptets n B).take m := by
  rw [lowSeptets, lowSeptets, ← List.map_take, List.take_range, Nat.min_eq_left h]

/-- How many septets come back: all, but for the last of a full group (90_conflicts.md C2). -/
theorem unpackedLength_packedLength (n : Nat) :
    unpackedLength (packedLength n) = if n % 8 ≠ 0 then n else n - 1 := by
  have hpacked : packedLength n = 7 * (n / 8) + n % 8 := by
    unfold packedLength
    omega
  have hseptets : 8 * (7 * (n / 8) + n % 8) / 7 = 8 * (n / 8) + n % 8 + n % 8 / 7 := by omega
  rw [hpacked, unpackedLength, hseptets]
  split_ifs <;> omega

/-- Unpacking the packed form gives the septets back, but for the last of a full group. -/
theorem unpackedForm_packedForm (vs : List Septet) :
    unpackedForm (packedForm vs) = if vs.length % 8 ≠ 0 then vs else vs.dropLast := by
  have hle : unpackedLength (packedLength vs.length) ≤ vs.length := by
    rw [unpackedLength_packedLength]
    split <;> omega
  rw [unpackedForm_eq_lowSeptets, bitString_packedForm, packedForm_length, lowSeptets_of_le hle, lowSeptets_bitString,
    unpackedLength_packedLength]
  split
  · exact List.take_length
  · exact List.dropLast_eq_take.symm

/-- Settles O34: the packer's octets are the packed form, and an idle unpacker emits the septets of the equation. -/
theorem unpackInvertsPackButForFullGroups : Obligations.UnpackInvertsPackButForFullGroups := by
  intro ss s hpack hunpack
  refine ⟨packedForm ss, _, _, execAll_packSept_septets hpack ss, rfl, execAll_unpackOct (s := s.emit _) hunpack _, ?_⟩
  rw [State.emit_outBuf, sourceUnpack_eq_unpackedForm, unpackedForm_packedForm]

/-- Settles O35: the emitted septets see the bits below `7N` alone. -/
theorem paddingIsIgnored : Obligations.PaddingIsIgnored := by
  intro os os' s hidle hlength hbits
  have hform : unpackedForm os = unpackedForm os' := by
    rw [unpackedForm_eq_lowSeptets, unpackedForm_eq_lowSeptets, ← lowSeptets_mod, hbits, hlength, lowSeptets_mod]
  refine ⟨?_, _, execAll_unpackOct hidle os⟩
  rw [execAll_unpackOct hidle, execAll_unpackOct hidle, sourceUnpack_eq_unpackedForm, sourceUnpack_eq_unpackedForm,
    hform]

/-! ### Encoding and decoding a text -/

/-- The characters that come back: those of a table, but for the one at basic 0x1B (90_conflicts.md C3). -/
def Supported (cfg : Config) (c : CharVal) : Prop :=
  c ≠ cfg.basicRead 0x1B#7 ∧ ((cfg.basicFind c).isSome = true ∨ (cfg.extFind c).isSome = true)

/-- In `NORMAL` a septet other than the escape is read in the basic table. -/
theorem decodeText_basic (cfg : Config) {i : Septet} (hi : i ≠ escSeptet) (bs : List Octet) :
    decodeText cfg .normal (byteOfSeptet i :: bs) = cfg.basicRead i :: decodeText cfg .normal bs := by
  have hesc : (byteOfSeptet i).toNat ≠ 0x1B := fun h =>
    hi (by simpa [septetOf_byteOfSeptet] using congrArg septetOf ((eq_byteOfSeptet_escSeptet_iff _).mpr h))
  rw [decodeText, if_neg hesc, if_pos (byteOfSeptet_toNat_lt i), septetOf_byteOfSeptet]

/-- The escape and a code of the extension table are read as its character. -/
theorem decodeText_ext {cfg : Config} {j : Septet} {c : CharVal} (hj : cfg.extRead j.toNat = some c) (bs : List Octet) :
    decodeText cfg .normal (byteOfSeptet escSeptet :: byteOfSeptet j :: bs) = c :: decodeText cfg .normal bs := by
  have hbyte : (byteOfSeptet j).toNat = j.toNat := BitVec.toNat_setWidth_of_le (by decide)
  rw [decodeText, if_pos ((eq_byteOfSeptet_escSeptet_iff _).mp rfl), decodeText, hbyte, hj]

/-- The septets of a supported character decode to it. -/
theorem decodeText_encSeq {cfg : Config} (hwf : cfg.wf = true) {c : CharVal} (hc : Supported cfg c) (bs : List Octet) :
    decodeText cfg .normal ((encSeq cfg c).map byteOfSeptet ++ bs) = c :: decodeText cfg .normal bs := by
  obtain ⟨hne, htable⟩ := hc
  obtain ⟨i, hi, hseq⟩ | ⟨j, -, hj, hseq⟩ | ⟨hb, he, -⟩ := encSeq_cases cfg c
  · have hread : cfg.basicRead i = c := Config.basicRead_of_basicFind hi
    have hesc : i ≠ escSeptet := by
      rintro rfl
      exact hne hread.symm
    rw [hseq, List.map_singleton, List.singleton_append, decodeText_basic cfg hesc, hread]
  · have hread := (Config.extRead_toNat_eq_some_iff hwf).mpr (Config.mem_of_extFind hj)
    rw [hseq]
    exact decodeText_ext hread bs
  · simp [hb, he] at htable

/-- The septets of a text of supported characters decode to the text. -/
theorem decodeText_encodeText {cfg : Config} (hwf : cfg.wf = true) {text : List CharVal}
    (htext : ∀ c ∈ text, Supported cfg c) :
    decodeText cfg .normal ((encodeText cfg text).map byteOfSeptet) = text := by
  induction text with
  | nil => rfl
  | cons c text ih =>
    obtain ⟨hc, htext'⟩ := List.forall_mem_cons.mp htext
    rw [encodeText_cons, List.map_append, decodeText_encSeq hwf hc, ih htext']

/-- Settles O40: the encode call emits the text's septets, and the decode call decodes them. -/
theorem unpackedRoundTrip : Obligations.UnpackedRoundTrip := by
  intro text s hwf hdec htext
  refine ⟨encodeText s.cfg text, _, _, execAll_encStr text s, rfl, execAll_decBytes _ _, ?_⟩
  rw [State.emit_outBuf, State.emit_cfg, State.emit_decEsc, (decIdle_iff s).mp hdec]
  exact congrArg _ (congrArg _ (decodeText_encodeText hwf htext))

/-- Settles O41: with no full last group the septets all come back through the packed form, and decode to the text. -/
theorem packedRoundTrip : Obligations.PackedRoundTrip := by
  intro text s hwf hpack hunpack hdec htext hcount
  have hseptets : unpackedForm (packedForm (encodeText s.cfg text)) = encodeText s.cfg text := by
    rw [unpackedForm_packedForm]
    obtain rfl | hcount := hcount
    · rfl
    · exact if_pos hcount
  refine ⟨packedForm (encodeText s.cfg text), _, _, execAll_encPStr hpack text, rfl,
    execAll_updBytes (s := s.emit _) hunpack hdec _, ?_⟩
  rw [State.emit_outBuf, State.emit_cfg, hseptets, decodeText_encodeText hwf htext]

end Sys2Proof.Machine
end
